-- ==== Sys2Proof/Word.lean ====
section
/-! DEFINITION. The word types of the CHIP-8 core: bytes, 16-bit words, 12-bit addresses, register and key numbers. -/

namespace Sys2Proof

/-- An 8-bit value: a general register, a timer, a byte of memory (R30, R37, R70). -/
abbrev Byte := BitVec 8

/-- A 16-bit value: an instruction word, `pc`, `I`, a return address (R32, R35, R36, R100). -/
abbrev Word := BitVec 16

/-- The 12-bit immediate `nnn` (R100). -/
abbrev Addr12 := BitVec 12

/-- The number of a general register, V0 to VF (R30): a name, never added or masked, so no bit vector. -/
abbrev Reg := Fin 16

/-- VF, register 15, which is also the flag register (R31). -/
abbrev Reg.vf : Reg := 15

/-- The number of a key, 0x0 to 0xF (R41). -/
abbrev Key := Fin 16

/-- The 4-bit immediate `n`, a row count 0 to 15 (R100, R101). -/
abbrev Count := Fin 16

end Sys2Proof
end

