-- ==== Sys2Proof/Syntax.lean ====
section
/-! DEFINITION. The instructions: one constructor for each of the 35 rows of spec/opcode_table.json (R103), in the table's order. -/

namespace Sys2Proof

/-- An instruction of the original CHIP-8 set (R2, R103). The operand types are the field widths of R100, so an
immediate that does not fit its field cannot be written (R110). -/
inductive Instr where
  /-- `0NNN`, SYS NNN (R150). -/
  | sys (nnn : Addr12)
  /-- `00E0`, CLS (R230). -/
  | cls
  /-- `00EE`, RET (R151). -/
  | ret
  /-- `1NNN`, JP NNN (R152). -/
  | jp (nnn : Addr12)
  /-- `2NNN`, CALL NNN (R153). -/
  | call (nnn : Addr12)
  /-- `3XNN`, SE Vx, NN (R154). -/
  | seImm (x : Reg) (nn : Byte)
  /-- `4XNN`, SNE Vx, NN (R155). -/
  | sneImm (x : Reg) (nn : Byte)
  /-- `5XY0`, SE Vx, Vy (R156). -/
  | seReg (x y : Reg)
  /-- `6XNN`, LD Vx, NN (R171). -/
  | ldImm (x : Reg) (nn : Byte)
  /-- `7XNN`, ADD Vx, NN (R172). -/
  | addImm (x : Reg) (nn : Byte)
  /-- `8XY0`, LD Vx, Vy (R173). -/
  | ldReg (x y : Reg)
  /-- `8XY1`, OR Vx, Vy (R174). -/
  | orReg (x y : Reg)
  /-- `8XY2`, AND Vx, Vy (R175). -/
  | andReg (x y : Reg)
  /-- `8XY3`, XOR Vx, Vy (R176). -/
  | xorReg (x y : Reg)
  /-- `8XY4`, ADD Vx, Vy (R177). -/
  | addReg (x y : Reg)
  /-- `8XY5`, SUB Vx, Vy (R178). -/
  | subReg (x y : Reg)
  /-- `8XY6`, SHR Vx, Vy (R179). -/
  | shr (x y : Reg)
  /-- `8XY7`, SUBN Vx, Vy (R180). -/
  | subn (x y : Reg)
  /-- `8XYE`, SHL Vx, Vy (R181). -/
  | shl (x y : Reg)
  /-- `9XY0`, SNE Vx, Vy (R157). -/
  | sneReg (x y : Reg)
  /-- `ANNN`, LD I, NNN (R200). -/
  | ldI (nnn : Addr12)
  /-- `BNNN`, JP V0, NNN (R158); its `x` under JUMP_REG = VX is `nnn[11:8]`. -/
  | jpV0 (nnn : Addr12)
  /-- `CXNN`, RND Vx, NN (R182). -/
  | rnd (x : Reg) (nn : Byte)
  /-- `DXYN`, DRW Vx, Vy, N (R231). -/
  | drw (x y : Reg) (n : Count)
  /-- `EX9E`, SKP Vx (R250). -/
  | skp (x : Reg)
  /-- `EXA1`, SKNP Vx (R251). -/
  | sknp (x : Reg)
  /-- `FX07`, LD Vx, DT (R220). -/
  | ldVxDt (x : Reg)
  /-- `FX0A`, LD Vx, K (R252). -/
  | ldVxK (x : Reg)
  /-- `FX15`, LD DT, Vx (R221). -/
  | ldDtVx (x : Reg)
  /-- `FX18`, LD ST, Vx (R222). -/
  | ldStVx (x : Reg)
  /-- `FX1E`, ADD I, Vx (R201). -/
  | addI (x : Reg)
  /-- `FX29`, LD F, Vx (R202). -/
  | ldF (x : Reg)
  /-- `FX33`, LD B, Vx (R203). -/
  | ldB (x : Reg)
  /-- `FX55`, LD [I], Vx (R204). -/
  | storeRegs (x : Reg)
  /-- `FX65`, LD Vx, [I] (R205). -/
  | loadRegs (x : Reg)
  deriving DecidableEq, Repr

end Sys2Proof
end

