-- ==== Sys2Proof/Decode.lean ====
section
/-! DEFINITION. The encoding of R100 to R110: the fields of a word, the decoder, and after it the encoder. -/

namespace Sys2Proof

/-! ### Fields of a word (R100) -/

/-- `w[15:12]`, the major opcode. -/
def Word.op (w : Word) : BitVec 4 := w.extractLsb' 12 4
/-- `w[11:8]`, the first register index. -/
def Word.x (w : Word) : Reg := (w.extractLsb' 8 4).toFin
/-- `w[7:4]`, the second register index. -/
def Word.y (w : Word) : Reg := (w.extractLsb' 4 4).toFin
/-- `w[3:0]`, as the secondary discriminant of families 5, 8 and 9. -/
def Word.n (w : Word) : BitVec 4 := w.extractLsb' 0 4
/-- `w[3:0]`, as the row count of DXYN. -/
def Word.count (w : Word) : Count := (w.extractLsb' 0 4).toFin
/-- `w[7:0]`, the 8-bit immediate, and the secondary discriminant of families E and F. -/
def Word.nn (w : Word) : Byte := w.extractLsb' 0 8
/-- `w[11:0]`, the 12-bit address. -/
def Word.nnn (w : Word) : Addr12 := w.extractLsb' 0 12

/-! ### Decoding (R102, R103, R104) -/

/-- Why bytes are no instruction. -/
inductive DecodeError where
  /-- `Invalid(w)`: an illegal word, with the word itself (R104, D38). -/
  | invalid (w : Word)
  /-- Fewer than the two bytes every instruction has (R107). -/
  | tooShort (given : Nat)
  deriving DecidableEq, Repr

/-- Family 0: "the discriminant is the whole word (00E0 and 00EE; every other value is SYS)" (R102). -/
def decode0 (w : Word) : Except DecodeError Instr :=
  match w.nnn with
  | 0x0E0#12 => .ok .cls
  | 0x0EE#12 => .ok .ret
  | _ => .ok (.sys w.nnn)

/-- Family 5: only 5XY0 (R104). -/
def decode5 (w : Word) : Except DecodeError Instr :=
  match w.n with
  | 0x0#4 => .ok (.seReg w.x w.y)
  | _ => .error (.invalid w)

/-- Family 8: n in 0 to 7 and E (R104). -/
def decode8 (w : Word) : Except DecodeError Instr :=
  match w.n with
  | 0x0#4 => .ok (.ldReg w.x w.y)
  | 0x1#4 => .ok (.orReg w.x w.y)
  | 0x2#4 => .ok (.andReg w.x w.y)
  | 0x3#4 => .ok (.xorReg w.x w.y)
  | 0x4#4 => .ok (.addReg w.x w.y)
  | 0x5#4 => .ok (.subReg w.x w.y)
  | 0x6#4 => .ok (.shr w.x w.y)
  | 0x7#4 => .ok (.subn w.x w.y)
  | 0xE#4 => .ok (.shl w.x w.y)
  | _ => .error (.invalid w)

/-- Family 9: only 9XY0 (R104). -/
def decode9 (w : Word) : Except DecodeError Instr :=
  match w.n with
  | 0x0#4 => .ok (.sneReg w.x w.y)
  | _ => .error (.invalid w)

/-- Family E: only EX9E and EXA1 (R104). -/
def decodeE (w : Word) : Except DecodeError Instr :=
  match w.nn with
  | 0x9E#8 => .ok (.skp w.x)
  | 0xA1#8 => .ok (.sknp w.x)
  | _ => .error (.invalid w)

/-- Family F: the nine FX·· forms (R104). -/
def decodeF (w : Word) : Except DecodeError Instr :=
  match w.nn with
  | 0x07#8 => .ok (.ldVxDt w.x)
  | 0x0A#8 => .ok (.ldVxK w.x)
  | 0x15#8 => .ok (.ldDtVx w.x)
  | 0x18#8 => .ok (.ldStVx w.x)
  | 0x1E#8 => .ok (.addI w.x)
  | 0x29#8 => .ok (.ldF w.x)
  | 0x33#8 => .ok (.ldB w.x)
  | 0x55#8 => .ok (.storeRegs w.x)
  | 0x65#8 => .ok (.loadRegs w.x)
  | _ => .error (.invalid w)

/-- The decoder: total on all 65536 words, dispatching on the major opcode, then on the secondary discriminant (R102).
The one value that the last arm takes is 0xF. -/
def decodeWord (w : Word) : Except DecodeError Instr :=
  match w.op with
  | 0x0#4 => decode0 w
  | 0x1#4 => .ok (.jp w.nnn)
  | 0x2#4 => .ok (.call w.nnn)
  | 0x3#4 => .ok (.seImm w.x w.nn)
  | 0x4#4 => .ok (.sneImm w.x w.nn)
  | 0x5#4 => decode5 w
  | 0x6#4 => .ok (.ldImm w.x w.nn)
  | 0x7#4 => .ok (.addImm w.x w.nn)
  | 0x8#4 => decode8 w
  | 0x9#4 => decode9 w
  | 0xA#4 => .ok (.ldI w.nnn)
  | 0xB#4 => .ok (.jpV0 w.nnn)
  | 0xC#4 => .ok (.rnd w.x w.nn)
  | 0xD#4 => .ok (.drw w.x w.y w.count)
  | 0xE#4 => decodeE w
  | _ => decodeF w

/-- The word of two bytes in storage order: big-endian, the first byte is `w[15:8]` (R73). -/
def wordOfBytes (hi lo : Byte) : Word := hi ++ lo
/-- `w[15:8]`, the byte at the lower address (R73). -/
def Word.hiByte (w : Word) : Byte := w.extractLsb' 8 8
/-- `w[7:0]`, the byte at the higher address (R73). -/
def Word.loByte (w : Word) : Byte := w.extractLsb' 0 8

/-- Decoding from bytes in storage order: the instruction and the bytes after it; "a decoder always consumes 2 bytes" (R107). -/
def decodeBytes : List Byte → Except DecodeError (Instr × List Byte)
  | hi :: lo :: rest =>
    match decodeWord (wordOfBytes hi lo) with
    | .ok i => .ok (i, rest)
    | .error e => .error e
  | [] => .error (.tooShort 0)
  | [_] => .error (.tooShort 1)

/-- The decoder asked through the opcode table's numbering of bits: one 16-bit word, bit 0 its least significant bit, laid out as
the hardware stores it. -/
def decodeTableWord (nbits w : Nat) : Option Instr :=
  let word : Word := BitVec.ofNat 16 (w % 2 ^ nbits)
  match decodeBytes [word.hiByte, word.loByte] with
  | .ok (i, _) => some i
  | .error _ => none

/-! ### Encoding (R103, R110) -/

/-- Pattern `oooo nnnn nnnn nnnn` (format NNN). -/
def formNNN (op : BitVec 4) (nnn : Addr12) : Word := op ++ nnn
/-- Pattern `oooo xxxx nnnn nnnn` (formats XNN and XKK). -/
def formXNN (op : BitVec 4) (x : Reg) (nn : Byte) : Word := op ++ (BitVec.ofFin (w := 4) x ++ nn)
/-- Pattern `oooo xxxx yyyy nnnn` (formats XY0 and XYN). -/
def formXYN (op : BitVec 4) (x y : Reg) (n : BitVec 4) : Word := op ++ (BitVec.ofFin (w := 4) x ++ (BitVec.ofFin (w := 4) y ++ n))

/-- The word of an instruction: its fields put into the pattern of R103 (R110). -/
def encode : Instr → Word
  | .sys nnn => formNNN 0x0#4 nnn
  | .cls => 0x00E0#16
  | .ret => 0x00EE#16
  | .jp nnn => formNNN 0x1#4 nnn
  | .call nnn => formNNN 0x2#4 nnn
  | .seImm x nn => formXNN 0x3#4 x nn
  | .sneImm x nn => formXNN 0x4#4 x nn
  | .seReg x y => formXYN 0x5#4 x y 0x0#4
  | .ldImm x nn => formXNN 0x6#4 x nn
  | .addImm x nn => formXNN 0x7#4 x nn
  | .ldReg x y => formXYN 0x8#4 x y 0x0#4
  | .orReg x y => formXYN 0x8#4 x y 0x1#4
  | .andReg x y => formXYN 0x8#4 x y 0x2#4
  | .xorReg x y => formXYN 0x8#4 x y 0x3#4
  | .addReg x y => formXYN 0x8#4 x y 0x4#4
  | .subReg x y => formXYN 0x8#4 x y 0x5#4
  | .shr x y => formXYN 0x8#4 x y 0x6#4
  | .subn x y => formXYN 0x8#4 x y 0x7#4
  | .shl x y => formXYN 0x8#4 x y 0xE#4
  | .sneReg x y => formXYN 0x9#4 x y 0x0#4
  | .ldI nnn => formNNN 0xA#4 nnn
  | .jpV0 nnn => formNNN 0xB#4 nnn
  | .rnd x nn => formXNN 0xC#4 x nn
  | .drw x y n => formXYN 0xD#4 x y (BitVec.ofFin (w := 4) n)
  | .skp x => formXNN 0xE#4 x 0x9E#8
  | .sknp x => formXNN 0xE#4 x 0xA1#8
  | .ldVxDt x => formXNN 0xF#4 x 0x07#8
  | .ldVxK x => formXNN 0xF#4 x 0x0A#8
  | .ldDtVx x => formXNN 0xF#4 x 0x15#8
  | .ldStVx x => formXNN 0xF#4 x 0x18#8
  | .addI x => formXNN 0xF#4 x 0x1E#8
  | .ldF x => formXNN 0xF#4 x 0x29#8
  | .ldB x => formXNN 0xF#4 x 0x33#8
  | .storeRegs x => formXNN 0xF#4 x 0x55#8
  | .loadRegs x => formXNN 0xF#4 x 0x65#8

/-- The two bytes of an instruction in storage order (R73). -/
def encodeBytes (i : Instr) : List Byte := [(encode i).hiByte, (encode i).loByte]

end Sys2Proof
end

