-- ==== Sys2Proof/Config.lean ====
section
/-! DEFINITION. The configuration parameters of R9, exact time, and the free values of R10 as constants without a body. -/

namespace Sys2Proof

/-- SHIFT_SRC: the source of SHR and SHL (R9, D5; OPEN). -/
inductive ShiftSrc where
  /-- "original": the source is Vy. -/
  | vy
  /-- "later quirk": Vx is shifted in place. -/
  | vx
  deriving DecidableEq, Repr, Inhabited

/-- LS_INDEX: what FX55 and FX65 do to I (R9, R206, D6; OPEN). -/
inductive LsIndex where
  /-- I unchanged. -/
  | keep
  /-- I ← I + x + 1. -/
  | addXPlus1
  /-- I ← I + x. -/
  | addX
  deriving DecidableEq, Repr, Inhabited

/-- VF_ORDER: which of the result write and the flag write lands last when the destination is VF (R9, R170, D7; OPEN). -/
inductive VfOrder where
  | flagLast
  | resultLast
  deriving DecidableEq, Repr, Inhabited

/-- LOGIC_VF: whether OR, AND and XOR write VF ← 0 (R9, D8). -/
inductive LogicVf where
  | keep
  | reset
  deriving DecidableEq, Repr

/-- JUMP_REG: the register BNNN adds (R9, R158, D9). -/
inductive JumpReg where
  | v0
  | vx
  deriving DecidableEq, Repr

/-- SYS_POLICY: what 0NNN does (R9, R150, D3). -/
inductive SysPolicy where
  | fault
  | nop
  deriving DecidableEq, Repr

/-- KEY_WAIT: what ends the wait of FX0A (R9, R253, D20). -/
inductive KeyWait where
  /-- A key that goes from unpressed to pressed. -/
  | edge
  /-- Any key held. -/
  | level
  deriving DecidableEq, Repr

/-- A time in seconds: an exact rational, never negative (R45, R284 "exact rational arithmetic"). -/
structure Time where
  secs : Rat
  nonneg : 0 ≤ secs
  deriving DecidableEq, Repr

/-- The sum of two times (R284: `clk.T + e`). -/
def Time.add (a b : Time) : Time := ⟨a.secs + b.secs, add_nonneg a.nonneg b.nonneg⟩

/-- Time zero. -/
def Time.zero : Time := ⟨0, le_refl 0⟩

/-- A rate in events per second: an exact positive rational (R9: "a positive rational"). -/
structure Rate where
  hz : Rat
  pos : 0 < hz
  deriving DecidableEq, Repr

/-- TIMER_RATE_HZ, the fixed 60 Hz of R8. -/
def Rate.timer : Rate := ⟨60, by norm_num⟩

/-- The configuration `cfg`, the argument of `new` (R9, R44): no step changes it. -/
structure Config where
  shiftSrc  : ShiftSrc
  lsIndex   : LsIndex
  vfOrder   : VfOrder
  logicVf   : LogicVf
  jumpReg   : JumpReg
  sysPolicy : SysPolicy
  keyWait   : KeyWait
  /-- FONT_BASE, with `FONT_BASE + 79 ≤ 0x1FF`: 0 to 432 (R9, D22). -/
  fontBase  : Fin 433
  /-- CYCLE_RATE_HZ (R9, D19; OPEN). -/
  cycleRate : Rate
  deriving DecidableEq, Repr

/-! ### OPEN parameters at construction: nothing in Lean can say which value they have (log 1) -/

opaque Config.openShiftSrc : ShiftSrc
opaque Config.openLsIndex : LsIndex
opaque Config.openVfOrder : VfOrder
/-- Numerator less one and denominator less one of the OPEN instruction rate: every positive rational is of this form. -/
opaque Config.openRateNum : Nat
opaque Config.openRateDen : Nat

/-! ### Free draws (R10): the n-th draw of a run is the constant applied to n, which State's `draws` counts (log 7, 8, 9) -/

/-- The 8-bit random value of RND (R182). -/
opaque Config.freeByte : Nat → Byte
/-- The choice among several held keys (R253, R289). -/
opaque Config.freeChoice : Nat → Nat
/-- Whether the next event of a tick is a cycle, where both kinds are still due (R285). -/
opaque Config.freeCycleFirst : Nat → Bool

end Sys2Proof
end

