-- ==== Sys2Proof/Machine/Initial.lean ====
section
/-! DEFINITION. The `new` argument with which State.reset is constructed (R9, R310): a definition of its own, which no other
operation reads, so that a machine with other quirks changes this text alone. -/

namespace Sys2Proof.Machine

/-- The OPEN parameters are the constants without a body (DESIGN CHOICE, log 1); the others have the defaults of R9
(DESIGN CHOICE of the spec, log 2). -/
def initialConfig : Config where
  shiftSrc := Config.openShiftSrc
  lsIndex := Config.openLsIndex
  vfOrder := Config.openVfOrder
  logicVf := .keep
  jumpReg := .v0
  sysPolicy := .fault
  keyWait := .edge
  fontBase := 0x050
  cycleRate := ⟨((Config.openRateNum : Rat) + 1) / ((Config.openRateDen : Rat) + 1), by positivity⟩

end Sys2Proof.Machine
end

