-- ==== Sys2Proof/Machine/State.lean ====
section
/-! DEFINITION. The state of one CHIP-8 core as plain data (R30 to R46), the reasons a cycle can fail, and the state after construction. -/

namespace Sys2Proof.Machine

/-- The CPU faults (R270), with the value each records. A fault is TAKEN, as R275 describes: the step answers a NEXT state whose
`run` is `halted f` (log 3). No step answers Host.Outcome.fault, so no claim can be made true by a stop: safe. -/
inductive Fault where
  /-- `AddressFault(a)`, `a` the first out-of-range address. Raised by the fetch, DRW, LD B, LD [I] and LD Vx,[I] (R270). -/
  | addressFault (a : Nat)
  /-- Raised by CALL at depth 16 (R153). -/
  | stackOverflow
  /-- Raised by RET at depth 0 (R151). -/
  | stackUnderflow
  /-- `InvalidOpcode(w)`, `w` the word fetched. Raised by decode of an illegal word (R135) and by SYS under SYS_POLICY = FAULT (R150). -/
  | invalidOpcode (w : Word)
  deriving DecidableEq, Repr

/-- The reasons to give an instruction no meaning. -/
inductive Refusal where
  /-- An instruction without a meaning yet, by the opcode table's mnemonic. Raised by no arm: all 35 rows have their meaning. It would be safe. -/
  | notModelled (mnemonic : String)
  deriving DecidableEq, Repr

/-- The CPU's run state (R38). -/
inductive RunState where
  | running
  /-- An FX0A with register `x` is waiting. -/
  | waitingForKey (x : Reg)
  /-- Fault `f` stopped the CPU. -/
  | halted (f : Fault)
  deriving DecidableEq, Repr

/-- The Clock's accumulators `clk` (R43, R284). -/
structure Clk where
  /-- `clk.T`: total elapsed time. -/
  elapsed : Time
  /-- `clk.cycles`: instruction cycles already run by ticks. -/
  cycles  : Nat
  /-- `clk.ticks`: timer ticks already applied by ticks. -/
  ticks   : Nat
  deriving DecidableEq, Repr

/-- The two kinds of event that the Clock schedules (R45, R284). -/
inductive ClockEvent where
  | cycle
  | timerTick
  deriving DecidableEq, Repr

/-- An event at one of the in-ports of R45. -/
inductive HostEvent where
  /-- `cycle` or `timer_tick`. -/
  | clock (e : ClockEvent)
  /-- `tick(e)`. -/
  | tick (e : Time)
  /-- `set_key(k, p)`. -/
  | setKey (k : Key) (p : Bool)
  /-- `load(rom)`. -/
  | load (rom : List Byte)
  /-- `reset()`. -/
  | reset
  deriving DecidableEq, Repr

/-- Memory (R39, R70): the bytes that differ from the construction contents, by rising address (Machine/Memory.lean). -/
abbrev Memory := List Host.Cell

/-- The framebuffer (R40): 32 rows of 64 one-bit pixels. `fb[y][x]` here is the spec's `fb[x][y]`. -/
abbrev Framebuffer := Vector (Vector Bool 64) 32

/-- The state of one block: the tuple of 10_state.md, `cfg`, and two fields of the model's own. -/
structure State where
  /-- `V0` to `VF` (R30). -/
  v      : Vector Byte 16
  /-- The index register `I` (R36). -/
  i      : Word
  /-- The program counter (R32). -/
  pc     : Word
  /-- The return addresses, the top of the stack first (R35); `depth` is the length. -/
  stack  : List Word
  /-- The delay timer (R37). -/
  dt     : Byte
  /-- The sound timer (R37). -/
  st     : Byte
  /-- The run state (R38). -/
  run    : RunState
  /-- Memory (R39). -/
  mem    : Memory
  /-- The framebuffer (R40). -/
  fb     : Framebuffer
  /-- The keypad, `true` is pressed (R41). -/
  key    : Vector Bool 16
  /-- The key latch (R42). -/
  latch  : Option Key
  /-- The Clock's accumulators (R43). -/
  clk    : Clk
  /-- The configuration, fixed at construction (R9, R44). -/
  cfg    : Config
  /-- The model's own: how many free draws have been taken (R10, log 7). -/
  draws  : Nat
  /-- The model's own: the host events still to come, the first one next (R274, R294, log 10). -/
  inputs : List HostEvent
  deriving DecidableEq, Repr

/-- `new(cfg)`: the state after construction (R46, R310). -/
def State.construct (cfg : Config) : State where
  v := Vector.replicate 16 0
  i := 0
  pc := 0x200
  stack := []
  dt := 0
  st := 0
  run := .running
  mem := []
  fb := Vector.replicate 32 (Vector.replicate 64 false)
  key := Vector.replicate 16 false
  latch := none
  clk := ⟨Time.zero, 0, 0⟩
  cfg := cfg
  draws := 0
  inputs := []

/-- The machine right after construction, with the configuration of Machine/Initial.lean (R46; log 1, 2, 5). The `reset()` port, which
keeps memory and keys, is `resetEvent`; after construction it changes nothing. -/
def State.reset : State := State.construct initialConfig

end Sys2Proof.Machine
end

