-- ==== Sys2Proof/Machine/Memory.lean ====
section
/-! DEFINITION. Memory as a list of cells in one canonical form: its construction contents, reading, writing (R70 to R82). -/

namespace Sys2Proof.Machine

/-- MEM_SIZE, 4096 bytes (R8, R70). -/
abbrev memSize : Nat := 4096
/-- PROGRAM_BASE, 0x200 (R8). -/
abbrev programBase : Nat := 0x200
/-- MAX_ROM, 3584 bytes (R8, R314). -/
abbrev maxRom : Nat := 3584

/-- The 80 font bytes, five for each hex digit (R81, G6). -/
def fontBytes : List Byte :=
  [0xF0, 0x90, 0x90, 0x90, 0xF0] ++ [0x20, 0x60, 0x20, 0x20, 0x70] ++
  [0xF0, 0x10, 0xF0, 0x80, 0xF0] ++ [0xF0, 0x10, 0xF0, 0x10, 0xF0] ++
  [0x90, 0x90, 0xF0, 0x10, 0x10] ++ [0xF0, 0x80, 0xF0, 0x10, 0xF0] ++
  [0xF0, 0x80, 0xF0, 0x90, 0xF0] ++ [0xF0, 0x10, 0x20, 0x40, 0x40] ++
  [0xF0, 0x90, 0xF0, 0x90, 0xF0] ++ [0xF0, 0x90, 0xF0, 0x10, 0xF0] ++
  [0xF0, 0x90, 0xF0, 0x90, 0x90] ++ [0xE0, 0x90, 0xE0, 0x90, 0xE0] ++
  [0xF0, 0x80, 0x80, 0x80, 0xF0] ++ [0xE0, 0x90, 0x90, 0x90, 0xE0] ++
  [0xF0, 0x80, 0xF0, 0x80, 0xF0] ++ [0xF0, 0x80, 0xF0, 0x80, 0x80]

/-- What an unlisted address reads as: its contents after construction, the font byte at `FONT_BASE + k` for k below 80 and 0x00 elsewhere
(R46, R81, R310; log 12). -/
def Memory.unlisted (base : Fin 433) (a : Nat) : Byte :=
  if base.val ≤ a then fontBytes.getD (a - base.val) 0 else 0

/-- The byte at an address. -/
def Memory.read (base : Fin 433) : Memory → Nat → Byte
  | [], a => Memory.unlisted base a
  | (k, b) :: rest, a => if k = a then b else Memory.read base rest a

/-- The list without the cell of an address. -/
def Memory.erase : Memory → Nat → Memory
  | [], _ => []
  | (k, b) :: rest, a => if k = a then rest else (k, b) :: Memory.erase rest a

/-- The list with the cell of an address set, in its place by rising address. -/
def Memory.put : Memory → Nat → Byte → Memory
  | [], a, v => [(a, v)]
  | (k, b) :: rest, a, v =>
    if a < k then (a, v) :: (k, b) :: rest
    else if k = a then (a, v) :: rest
    else (k, b) :: Memory.put rest a v

/-- The list after a byte is written: a byte equal to what an unlisted address reads as leaves no cell. -/
def Memory.write (base : Fin 433) (m : Memory) (a : Nat) (v : Byte) : Memory :=
  if v = Memory.unlisted base a then m.erase a else m.put a v

/-- The list after bytes are written at consecutive addresses, the lowest first. -/
def Memory.writeList (base : Fin 433) (m : Memory) (a : Nat) : List Byte → Memory
  | [] => m
  | b :: rest => Memory.writeList base (m.write base a b) (a + 1) rest

/-- Canonical form of the cells from address `lo` on. -/
def Memory.wfFrom (base : Fin 433) (lo : Nat) : Memory → Bool
  | [] => true
  | (k, b) :: rest => decide (lo ≤ k) && decide (k < memSize) && (b != Memory.unlisted base k) && Memory.wfFrom base (k + 1) rest

/-- Canonical form: addresses strictly rising and below 4096, no cell equal to what an unlisted address reads as. -/
def Memory.wf (base : Fin 433) (m : Memory) : Bool := Memory.wfFrom base 0 m

end Sys2Proof.Machine
end

