-- ==== Sys2Proof/Machine/Ops.lean ====
section
/-! DEFINITION. The named operations over registers, memory and the stack, and taking a fault: the primitives of R12, R71 to R73, R138,
R159, R160 and R275. -/

namespace Sys2Proof.Machine

/-! ### Registers (R12, R30, R34, R36) -/

/-- `V[x]`. No register is hardwired (R30). -/
def State.getV (s : State) (x : Reg) : Byte := s.v[x]
/-- `V[x] <- b`. -/
def State.setV (s : State) (x : Reg) (b : Byte) : State := { s with v := s.v.set x b }
/-- `I <- a`. -/
def State.setI (s : State) (a : Word) : State := { s with i := a }
/-- `pc <- a`. -/
def State.setPc (s : State) (a : Word) : State := { s with pc := a }
/-- `run <- r`. -/
def State.setRun (s : State) (r : RunState) : State := { s with run := r }
/-- The framebuffer replaced. -/
def State.setFb (s : State) (fb : Framebuffer) : State := { s with fb := fb }
/-- The memory replaced. -/
def State.setMem (s : State) (m : Memory) : State := { s with mem := m }
/-- A free draw has been taken (R10, log 7). -/
def State.drawn (s : State) (k : Nat) : State := { s with draws := s.draws + k }
/-- `depth` (R35, R44). -/
def State.depth (s : State) : Nat := s.stack.length

/-- `pc <- (pc + 2) mod 2^16`: the advance of R134 and the skip of R159. -/
def State.advance (s : State) : State := s.setPc (s.pc + 2)
/-- A skip instruction's effect: a further advance when its condition holds (R159). -/
def State.skipIf (s : State) (c : Bool) : State := if c then s.advance else s

/-! ### Taking a fault (R138, R275), and the return beside it

No instruction returns from a fault (R276): the `reset()` port is the one way out of Halted (`resetEvent`, Machine/Ports.lean). -/

/-- Fault entry: `run <- Halted(f)` and nothing else; `s` is the state whose writes stand, so pc is what it holds (R275). -/
def takeFault (s : State) (f : Fault) : Host.Outcome State Fault Refusal := .next (s.setRun (.halted f))

/-- The end of an instruction begun in `s`: its result, or, where it raised a fault, `s` itself (every write discarded) with the
fault taken (R137, R138). -/
def commit (s : State) : Except Fault State → Host.Outcome State Fault Refusal
  | .ok t => .next t
  | .error f => takeFault s f

/-! ### Memory (R71 to R73, R77). Addresses are unbounded naturals, checked here and never wrapped (R12, D13) -/

/-- The byte an address holds, whether or not the address exists. -/
def State.byteAt (s : State) (a : Nat) : Byte := s.mem.read s.cfg.fontBase a

/-- `MemRead(a, 1)` (R71). -/
def memRead (s : State) (a : Nat) : Except Fault Byte :=
  if a < memSize then .ok (s.byteAt a) else .error (.addressFault a)

/-- `MemWrite(a, 1, b)` (R72). -/
def memWrite (s : State) (a : Nat) (b : Byte) : Except Fault State :=
  if a < memSize then .ok (s.setMem (s.mem.write s.cfg.fontBase a b)) else .error (.addressFault a)

/-- `n` byte reads at consecutive addresses, ascending (R77). -/
def readBytes (s : State) (a : Nat) : Nat → Except Fault (List Byte)
  | 0 => .ok []
  | n + 1 =>
    match memRead s a with
    | .error f => .error f
    | .ok b =>
      match readBytes s (a + 1) n with
      | .error f => .error f
      | .ok bs => .ok (b :: bs)

/-- Byte writes at consecutive addresses, ascending (R77). -/
def writeBytes (s : State) (a : Nat) : List Byte → Except Fault State
  | [] => .ok s
  | b :: bs =>
    match memWrite s a b with
    | .error f => .error f
    | .ok t => writeBytes t (a + 1) bs

/-- `Fetch16(a)`: big-endian, the byte at `a` first (R73). -/
def fetch16 (s : State) (a : Nat) : Except Fault Word :=
  match memRead s a with
  | .error f => .error f
  | .ok hi =>
    match memRead s (a + 1) with
    | .error f => .error f
    | .ok lo => .ok (wordOfBytes hi lo)

/-! ### The stack (R35, R160) -/

/-- STACK_DEPTH, 16 (R8). -/
abbrev stackDepth : Nat := 16

/-- `push(a)`. The spec's test is `depth = 16`; depth is never above 16 in a state that a run reaches (log 17). -/
def push (s : State) (a : Word) : Except Fault State :=
  if stackDepth ≤ s.depth then .error .stackOverflow else .ok { s with stack := a :: s.stack }

/-- `pop()`: the popped address and the state without it. -/
def pop (s : State) : Except Fault (Word × State) :=
  match s.stack with
  | [] => .error .stackUnderflow
  | a :: rest => .ok (a, { s with stack := rest })

end Sys2Proof.Machine
end

