-- ==== Sys2Proof/Machine/Operands.lean ====
section
/-! DEFINITION. Operand forms: zero-extended immediates, the registers that quirks select, key and digit numbers, the font address, and
the I-relative byte lists of the memory instructions (R14, R101, R158, R179, R202 to R206, R254). -/

namespace Sys2Proof.Machine

/-- `zext_16(nnn)` (R101). -/
def zextAddr (nnn : Addr12) : Word := nnn.setWidth 16
/-- `zext_16(b)` for a byte (R101). -/
def zextByte (b : Byte) : Word := b.setWidth 16

/-- `b AND 0x0F` as a key or digit number (R202, R254, D21). -/
def lowNibble (b : Byte) : Key := (b.extractLsb' 0 4).toFin

/-- `x = w[11:8]` of BNNN, the top nibble of its address field (R158). -/
def jumpX (nnn : Addr12) : Reg := (nnn.extractLsb' 8 4).toFin
/-- The register BNNN adds (R158, D9). -/
def jumpReg (cfg : Config) (nnn : Addr12) : Reg :=
  match cfg.jumpReg with
  | .v0 => 0
  | .vx => jumpX nnn

/-- The source of SHR and SHL (R179, R181, D5). -/
def shiftSource (s : State) (x y : Reg) : Byte :=
  match s.cfg.shiftSrc with
  | .vy => s.getV y
  | .vx => s.getV x

/-- The address of a digit's glyph, `FONT_BASE + 5 * d` (R81, R202). -/
def glyphAddr (cfg : Config) (d : Key) : Word := BitVec.ofNat 16 (cfg.fontBase.val + 5 * d.val)

/-- The three decimal digits of a byte, hundreds first (R203). -/
def decimalDigits (b : Byte) : List Byte :=
  [BitVec.ofNat 8 (b.toNat / 100), BitVec.ofNat 8 (b.toNat / 10 % 10), BitVec.ofNat 8 (b.toNat % 10)]

/-- The values of V0 to Vx, V0 first (R204). -/
def regsUpTo (s : State) (x : Reg) : List Byte := s.v.toList.take (x.val + 1)

/-- The register file after its first registers are loaded from a list, V0 first (R205). -/
def loadInto (v : Vector Byte 16) (bs : List Byte) : Vector Byte 16 :=
  Vector.ofFn fun r : Fin 16 => bs.getD r.val v[r]

/-- `IndexAdvance(x)`: the post-increment of FX55 and FX65, `x` the field's value (R206, D6). -/
def indexAdvance (x : Reg) (s : State) : State :=
  { s with
    i := match s.cfg.lsIndex with
      | .keep => s.i
      | .addXPlus1 => s.i + BitVec.ofNat 16 (x.val + 1)
      | .addX => s.i + BitVec.ofNat 16 x.val }

end Sys2Proof.Machine
end

