-- ==== Sys2Proof/Machine/Flags.lean ====
section
/-! DEFINITION. The flag computations of the ALU and of DRW, and the order of the flag write and the result write (R31, R170, R183). -/

namespace Sys2Proof.Machine

/-- A flag as the byte written to VF: 1 or 0. -/
def flagByte (c : Bool) : Byte := if c then 1 else 0

/-- The unsigned carry out of bit 7: the exact sum is 256 or more (R177, R183). -/
def carryOut (a b : Byte) : Bool := decide (256 ≤ a.toNat + b.toNat)
/-- "No borrow": minuend ≥ subtrahend (R178, R180, R183). -/
def noBorrow (minuend subtrahend : Byte) : Bool := decide (subtrahend.toNat ≤ minuend.toNat)
/-- The bit a right shift by one shifts out, bit 0 (R179). -/
def shrOut (b : Byte) : Bool := b.getLsbD 0
/-- The bit a left shift by one shifts out, bit 7 (R181). -/
def shlOut (b : Byte) : Bool := b.getLsbD 7

/-- `WriteXF(x, result, flag)` (R170): the register file alone depends on VF_ORDER. -/
def writeXF (s : State) (x : Reg) (result : Byte) (flag : Bool) : State :=
  { s with
    v := match s.cfg.vfOrder with
      | .flagLast => (s.v.set x result).set Reg.vf (flagByte flag)
      | .resultLast => (s.v.set Reg.vf (flagByte flag)).set x result }

/-- The result of OR, AND and XOR: `V[x] <- r`, and under LOGIC_VF = RESET `WriteXF(x, r, 0)` (R174 to R176, D8). -/
def writeLogic (s : State) (x : Reg) (r : Byte) : State :=
  { s with
    v := match s.cfg.logicVf with
      | .keep => s.v.set x r
      | .reset => (writeXF s x r false).v }

end Sys2Proof.Machine
end

