-- ==== Sys2Proof/Machine/Alu.lean ====
section
/-! DEFINITION. Register loads and the 8-bit ALU: 6XNN, 7XNN, 8XY·, CXNN (R170 to R183). No instruction of this file raises a fault. -/

namespace Sys2Proof.Machine

/-- `LD Vx, NN`, 6XNN (R171). -/
def execLdImm (x : Reg) (nn : Byte) (s : State) : Host.Outcome State Fault Refusal :=
  commit s (.ok (s.setV x nn))

/-- `ADD Vx, NN`, 7XNN (R172): modulo 256, no flag. -/
def execAddImm (x : Reg) (nn : Byte) (s : State) : Host.Outcome State Fault Refusal :=
  commit s (.ok (s.setV x (s.getV x + nn)))

/-- `LD Vx, Vy`, 8XY0 (R173). -/
def execLdReg (x y : Reg) (s : State) : Host.Outcome State Fault Refusal :=
  commit s (.ok (s.setV x (s.getV y)))

/-- `OR Vx, Vy`, 8XY1 (R174). -/
def execOrReg (x y : Reg) (s : State) : Host.Outcome State Fault Refusal :=
  commit s (.ok (writeLogic s x (s.getV x ||| s.getV y)))

/-- `AND Vx, Vy`, 8XY2 (R175). -/
def execAndReg (x y : Reg) (s : State) : Host.Outcome State Fault Refusal :=
  commit s (.ok (writeLogic s x (s.getV x &&& s.getV y)))

/-- `XOR Vx, Vy`, 8XY3 (R176). -/
def execXorReg (x y : Reg) (s : State) : Host.Outcome State Fault Refusal :=
  commit s (.ok (writeLogic s x (s.getV x ^^^ s.getV y)))

/-- `ADD Vx, Vy`, 8XY4 (R177). -/
def execAddReg (x y : Reg) (s : State) : Host.Outcome State Fault Refusal :=
  commit s (.ok (writeXF s x (s.getV x + s.getV y) (carryOut (s.getV x) (s.getV y))))

/-- `SUB Vx, Vy`, 8XY5 (R178): Vx − Vy. -/
def execSubReg (x y : Reg) (s : State) : Host.Outcome State Fault Refusal :=
  commit s (.ok (writeXF s x (s.getV x - s.getV y) (noBorrow (s.getV x) (s.getV y))))

/-- `SHR Vx, Vy`, 8XY6 (R179). -/
def execShr (x y : Reg) (s : State) : Host.Outcome State Fault Refusal :=
  commit s (.ok (writeXF s x (shiftSource s x y >>> 1) (shrOut (shiftSource s x y))))

/-- `SUBN Vx, Vy`, 8XY7 (R180): Vy − Vx. -/
def execSubn (x y : Reg) (s : State) : Host.Outcome State Fault Refusal :=
  commit s (.ok (writeXF s x (s.getV y - s.getV x) (noBorrow (s.getV y) (s.getV x))))

/-- `SHL Vx, Vy`, 8XYE (R181). -/
def execShl (x y : Reg) (s : State) : Host.Outcome State Fault Refusal :=
  commit s (.ok (writeXF s x (shiftSource s x y <<< 1) (shlOut (shiftSource s x y))))

/-- `RND Vx, NN`, CXNN (R182): `draw8() AND nn`, a fresh free draw at each execution (R10, log 7). -/
def execRnd (x : Reg) (nn : Byte) (s : State) : Host.Outcome State Fault Refusal :=
  commit s (.ok ((s.setV x (Config.freeByte s.draws &&& nn)).drawn 1))

end Sys2Proof.Machine
end

