-- ==== Sys2Proof/Machine/Display.lean ====
section
/-! DEFINITION. The display instructions 00E0 and DXYN (R230 to R232). -/

namespace Sys2Proof.Machine

/-- The framebuffer with every pixel unlit. -/
def blankScreen : Framebuffer := Vector.replicate 32 (Vector.replicate 64 false)

/-- The spec's `fb[px][py]`. -/
def pixel (fb : Framebuffer) (px : Fin 64) (py : Fin 32) : Bool := fb[py][px]

/-- `fb[px][py] <- not fb[px][py]`. -/
def togglePixel (fb : Framebuffer) (px : Fin 64) (py : Fin 32) : Framebuffer :=
  fb.set py (fb[py].set px (!pixel fb px py))

/-- One bit of a sprite row at column `px`, with the collision so far: clipped at column 64; a set bit toggles its pixel and collides
when the pixel was lit (R231). -/
def drawBit (px : Nat) (py : Fin 32) (bit : Bool) (acc : Framebuffer × Bool) : Framebuffer × Bool :=
  if h : px < 64 then
    if bit then (togglePixel acc.1 ⟨px, h⟩ py, acc.2 || pixel acc.1 ⟨px, h⟩ py) else acc
  else acc

/-- The bits `b`, `b + 1`, … 7 of one sprite row, bit 7 of the byte leftmost; `k` of them are left (R231). -/
def drawBits (x0 : Nat) (py : Fin 32) (row : Byte) : Nat → Framebuffer × Bool → Framebuffer × Bool
  | 0, acc => acc
  | k + 1, acc => drawBits x0 py row k (drawBit (x0 + (7 - k)) py (row.getLsbD k) acc)

/-- The rows of a sprite from screen row `y` on, each taken modulo 32: vertical wraparound (R231). -/
def drawRows (x0 : Nat) : Nat → List Byte → Framebuffer × Bool → Framebuffer × Bool
  | _, [], acc => acc
  | y, row :: rest, acc => drawRows x0 (y + 1) rest (drawBits x0 (Fin.ofNat 32 y) row 8 acc)

/-- `draw_sprite`: the new framebuffer and whether a lit pixel was turned unlit (R231). -/
def drawSprite (x0 y0 : Nat) (rows : List Byte) (fb : Framebuffer) : Framebuffer × Bool :=
  drawRows x0 y0 rows (fb, false)

/-- `CLS`, 00E0 (R230). -/
def execCls (s : State) : Host.Outcome State Fault Refusal :=
  commit s (.ok (s.setFb blankScreen))

/-- `DRW Vx, Vy, N`, DXYN (R231): the coordinates are read before VF is written. -/
def execDrw (x y : Reg) (n : Count) (s : State) : Host.Outcome State Fault Refusal :=
  commit s <|
    match readBytes s s.i.toNat n.val with
    | .error f => .error f
    | .ok rows =>
      .ok ((s.setFb (drawSprite ((s.getV x).toNat % 64) ((s.getV y).toNat % 32) rows s.fb).1).setV Reg.vf
        (flagByte (drawSprite ((s.getV x).toNat % 64) ((s.getV y).toNat % 32) rows s.fb).2))

end Sys2Proof.Machine
end

