-- ==== Sys2Proof/Machine/Flow.lean ====
section
/-! DEFINITION. Control flow: SYS, RET, JP, CALL, the four skips on register values, JP V0 (R150 to R162). Each meaning starts from the state
after the advance of R134: `pc` is the instruction's own address plus 2. -/

namespace Sys2Proof.Machine

/-- `SYS NNN`, 0NNN (R150): `InvalidOpcode(w)` under FAULT, with `w` the word itself; no effect under NOP. -/
def execSys (nnn : Addr12) (s : State) : Host.Outcome State Fault Refusal :=
  match s.cfg.sysPolicy with
  | .fault => commit s (.error (.invalidOpcode (zextAddr nnn)))
  | .nop => commit s (.ok s)

/-- `RET`, 00EE (R151): `pc <- pop()`. -/
def execRet (s : State) : Host.Outcome State Fault Refusal :=
  commit s <|
    match pop s with
    | .error f => .error f
    | .ok (a, t) => .ok (t.setPc a)

/-- `JP NNN`, 1NNN (R152). -/
def execJp (nnn : Addr12) (s : State) : Host.Outcome State Fault Refusal :=
  commit s (.ok (s.setPc (zextAddr nnn)))

/-- `CALL NNN`, 2NNN (R153): pushes the advanced pc, the return address. -/
def execCall (nnn : Addr12) (s : State) : Host.Outcome State Fault Refusal :=
  commit s <|
    match push s s.pc with
    | .error f => .error f
    | .ok t => .ok (t.setPc (zextAddr nnn))

/-- `SE Vx, NN`, 3XNN (R154). -/
def execSeImm (x : Reg) (nn : Byte) (s : State) : Host.Outcome State Fault Refusal :=
  commit s (.ok (s.skipIf (s.getV x == nn)))

/-- `SNE Vx, NN`, 4XNN (R155). -/
def execSneImm (x : Reg) (nn : Byte) (s : State) : Host.Outcome State Fault Refusal :=
  commit s (.ok (s.skipIf (s.getV x != nn)))

/-- `SE Vx, Vy`, 5XY0 (R156). -/
def execSeReg (x y : Reg) (s : State) : Host.Outcome State Fault Refusal :=
  commit s (.ok (s.skipIf (s.getV x == s.getV y)))

/-- `SNE Vx, Vy`, 9XY0 (R157). -/
def execSneReg (x y : Reg) (s : State) : Host.Outcome State Fault Refusal :=
  commit s (.ok (s.skipIf (s.getV x != s.getV y)))

/-- `JP V0, NNN`, BNNN (R158): the sum is taken modulo 2^16 and not wrapped to 12 bits. -/
def execJpV0 (nnn : Addr12) (s : State) : Host.Outcome State Fault Refusal :=
  commit s (.ok (s.setPc (zextAddr nnn + zextByte (s.getV (jumpReg s.cfg nnn)))))

end Sys2Proof.Machine
end

