-- ==== Sys2Proof/Machine/Index.lean ====
section
/-! DEFINITION. The index register and the memory instructions: ANNN, FX1E, FX29, FX33, FX55, FX65 (R200 to R206). The one addressing mode is
`I + k`, an unbounded natural number. -/

namespace Sys2Proof.Machine

/-- `LD I, NNN`, ANNN (R200). -/
def execLdI (nnn : Addr12) (s : State) : Host.Outcome State Fault Refusal :=
  commit s (.ok (s.setI (zextAddr nnn)))

/-- `ADD I, Vx`, FX1E (R201): modulo 2^16, no flag. -/
def execAddI (x : Reg) (s : State) : Host.Outcome State Fault Refusal :=
  commit s (.ok (s.setI (s.i + zextByte (s.getV x))))

/-- `LD F, Vx`, FX29 (R202): no memory access. -/
def execLdF (x : Reg) (s : State) : Host.Outcome State Fault Refusal :=
  commit s (.ok (s.setI (glyphAddr s.cfg (lowNibble (s.getV x)))))

/-- `LD B, Vx`, FX33 (R203). -/
def execLdB (x : Reg) (s : State) : Host.Outcome State Fault Refusal :=
  commit s (writeBytes s s.i.toNat (decimalDigits (s.getV x)))

/-- `LD [I], Vx`, FX55 (R204). -/
def execStoreRegs (x : Reg) (s : State) : Host.Outcome State Fault Refusal :=
  commit s <|
    match writeBytes s s.i.toNat (regsUpTo s x) with
    | .error f => .error f
    | .ok t => .ok (indexAdvance x t)

/-- `LD Vx, [I]`, FX65 (R205): I advances after the loads. -/
def execLoadRegs (x : Reg) (s : State) : Host.Outcome State Fault Refusal :=
  commit s <|
    match readBytes s s.i.toNat (x.val + 1) with
    | .error f => .error f
    | .ok bs => .ok (indexAdvance x { s with v := loadInto s.v bs })

end Sys2Proof.Machine
end

