-- ==== Sys2Proof/Machine/Keypad.lean ====
section
/-! DEFINITION. The keypad instructions EX9E, EXA1, FX0A, the completion of a key wait, and the keypad's own queries (R250 to R254, R289). -/

namespace Sys2Proof.Machine

/-- `is_pressed(k)` (R289). -/
def isPressed (s : State) (k : Key) : Bool := s.key[k]

/-- The set P of held keys, by rising number (R253). -/
def heldKeys (s : State) : List Key := (List.finRange 16).filter fun k => isPressed s k

/-- A key of a list at a free position: every one of them is admitted, and none of an empty list (R10, R253, log 8). -/
def pickKey (choice : Nat) (held : List Key) : Option Key := held[choice % held.length]?

/-- `poll_any_pressed()`: some pressed key, or none if no key is pressed; which one is not fixed, so the choice is an argument (R289, log 30). -/
def pollAnyPressed (choice : Nat) (s : State) : Option Key := pickKey choice (heldKeys s)

/-- `SKP Vx`, EX9E (R250). -/
def execSkp (x : Reg) (s : State) : Host.Outcome State Fault Refusal :=
  commit s (.ok (s.skipIf (isPressed s (lowNibble (s.getV x)))))

/-- `SKNP Vx`, EXA1 (R251). -/
def execSknp (x : Reg) (s : State) : Host.Outcome State Fault Refusal :=
  commit s (.ok (s.skipIf (!isPressed s (lowNibble (s.getV x)))))

/-- `LD Vx, K`, FX0A, the cycle that enters the wait (R252): no key is taken in it. -/
def execLdVxK (x : Reg) (s : State) : Host.Outcome State Fault Refusal :=
  commit s (.ok { s with latch := none, run := .waitingForKey x })

/-- The key is stored and the wait ends (R253). -/
def endKeyWait (x : Reg) (k : Key) (s : State) : State :=
  { s.setV x (BitVec.ofNat 8 k.val) with latch := none, run := .running }

/-- `key_wait_complete(x)` (R253): EDGE takes the latched key, LEVEL a key drawn from those held. -/
def keyWaitComplete (x : Reg) (s : State) : State :=
  match s.cfg.keyWait with
  | .edge =>
    match s.latch with
    | some k => endKeyWait x k s
    | none => s
  | .level =>
    match pickKey (Config.freeChoice s.draws) (heldKeys s) with
    | some k => (endKeyWait x k s).drawn 1
    | none => s

end Sys2Proof.Machine
end

