-- ==== Sys2Proof/Machine/Timers.lean ====
section
/-! DEFINITION. The timer instructions FX07, FX15, FX18 (R220 to R223). The countdown is no instruction: see `timerTick`. -/

namespace Sys2Proof.Machine

/-- `LD Vx, DT`, FX07 (R220). -/
def execLdVxDt (x : Reg) (s : State) : Host.Outcome State Fault Refusal :=
  commit s (.ok (s.setV x s.dt))

/-- `LD DT, Vx`, FX15 (R221). -/
def execLdDtVx (x : Reg) (s : State) : Host.Outcome State Fault Refusal :=
  commit s (.ok { s with dt := s.getV x })

/-- `LD ST, Vx`, FX18 (R222). -/
def execLdStVx (x : Reg) (s : State) : Host.Outcome State Fault Refusal :=
  commit s (.ok { s with st := s.getV x })

end Sys2Proof.Machine
end

