-- ==== Sys2Proof/Machine/Cycle.lean ====
section
/-! DEFINITION. The `cycle` event: dispatch on the run state, fetch, advance, decode, execute (R130 to R139). -/

namespace Sys2Proof.Machine

/-- Decode and execute a fetched word in the state after the advance (R135, R136). -/
def runWord (w : Word) (s : State) : Host.Outcome State Fault Refusal :=
  match decodeWord w with
  | .error _ => takeFault s (.invalidOpcode w)
  | .ok i => exec i s

/-- A cycle in Running: fetch, advance, decode, execute (R133 to R137). On a fetch fault pc is left unchanged. -/
def runCycle (s : State) : Host.Outcome State Fault Refusal :=
  match fetch16 s s.pc.toNat with
  | .error f => takeFault s f
  | .ok w => runWord w s.advance

/-- One `cycle` event (R130, R137). In Halted it changes no state (R131, log 4). -/
def cycle (s : State) : Host.Outcome State Fault Refusal :=
  match s.run with
  | .halted _ => .next s
  | .waitingForKey x => .next (keyWaitComplete x s)
  | .running => runCycle s

end Sys2Proof.Machine
end

