-- ==== Sys2Proof/Machine/Ports.lean ====
section
/-! DEFINITION. The block's ports but for `cycle` and `tick`: the timer tick, `set_key`, `load`, `reset`, and the out-ports (R45, R282 to R290, R310 to R314). -/

namespace Sys2Proof.Machine

/-! ### In-ports -/

/-- One decrement of a timer: never below zero (R37, R282). -/
def countDown (t : Byte) : Byte := if t = 0 then 0 else t - 1

/-- `timer_tick()`, whatever `run` is (R282, D16). -/
def timerTick (s : State) : State := { s with dt := countDown s.dt, st := countDown s.st }

/-- The latch after `set_key(k, p)` (R288). -/
def nextLatch (s : State) (k : Key) (p : Bool) : Option Key :=
  match s.run, s.latch with
  | .waitingForKey _, none => if p && !isPressed s k then some k else none
  | _, l => l

/-- `set_key(k, p)` (R287, R288). -/
def setKey (k : Key) (p : Bool) (s : State) : State :=
  { s with key := s.key.set k p, latch := nextLatch s k p }

/-- The one way a `load` fails (R271, R314). It is no CPU fault. -/
inductive LoadError where
  | tooLarge
  deriving DecidableEq, Repr

/-- `load(rom)` as the port answers it (R313, R314). -/
def loadResult (rom : List Byte) (s : State) : Except LoadError State :=
  if rom.length ≤ maxRom then .ok (s.setMem (s.mem.writeList s.cfg.fontBase programBase rom)) else .error .tooLarge

/-- The state after `load(rom)`: a failed load changes nothing (R314). -/
def loadRom (rom : List Byte) (s : State) : State :=
  match loadResult rom s with
  | .ok t => t
  | .error _ => s

/-- `reset()` (R311): memory, keys and `cfg` are kept. The only way out of Halted (R276). -/
def resetEvent (s : State) : State :=
  { s with
    v := Vector.replicate 16 0, i := 0, pc := 0x200, stack := [], dt := 0, st := 0, run := .running,
    fb := blankScreen, latch := none, clk := ⟨Time.zero, 0, 0⟩ }

/-! ### Out-ports -/

/-- `sound`: the bit `ST ≠ 0` (R286). -/
def sound (s : State) : Bool := s.st != 0

/-- `status`: the run state and fault (R38, R45). -/
def status (s : State) : RunState := s.run

/-- What a `cycle` or `tick` that ends in this state returns: `Err(f)` exactly when it is halted by `f` (R131, R135 to R137, R284; log 3). -/
def returned (s : State) : Except Fault Unit :=
  match s.run with
  | .halted f => .error f
  | _ => .ok ()

/-- The one way a read of the framebuffer port fails (R290, C3). It is no CPU fault. -/
inductive ReadError where
  | outOfBounds
  deriving DecidableEq, Repr

/-- `get(x, y)` of the `fb` port (R290). -/
def fbGet (s : State) (x y : Nat) : Except ReadError Bool :=
  if h : x < 64 ∧ y < 32 then .ok (pixel s.fb ⟨x, h.1⟩ ⟨y, h.2⟩) else .error .outOfBounds

/-- The numeric code of a fault (R270, D15). -/
def faultCode : Fault → Nat
  | .addressFault _ => 1
  | .stackOverflow => 2
  | .stackUnderflow => 3
  | .invalidOpcode _ => 4

end Sys2Proof.Machine
end

