-- ==== Sys2Proof/Machine/Events.lean ====
section
/-! DEFINITION. The Clock's host tick, with its counts and its order of events, and the application of one host event (R274, R283 to R285, R294). -/

namespace Sys2Proof.Machine

/-- `floor(T × rate)`, exact (R284). -/
def eventsBy (t : Time) (r : Rate) : Nat := (t.secs * r.hz).floor.toNat

/-- `nc`: cycle events due in `tick(e)` (R284). -/
def cyclesDue (s : State) (e : Time) : Nat := eventsBy (s.clk.elapsed.add e) s.cfg.cycleRate - s.clk.cycles
/-- `nt`: timer_tick events due in `tick(e)` (R284). -/
def ticksDue (s : State) (e : Time) : Nat := eventsBy (s.clk.elapsed.add e) Rate.timer - s.clk.ticks

/-- An interleaving of `nc` cycles with `nt` timer ticks (R285), for fuel `nc + nt`. Where both kinds are left, `cycleFirst i j` says which is next, `i` and
`j` the numbers of cycles and timer ticks already placed. -/
def interleave (cycleFirst : Nat → Nat → Bool) : Nat → Nat → Nat → Nat → Nat → List ClockEvent
  | 0, _, _, _, _ => []
  | _ + 1, 0, 0, _, _ => []
  | fuel + 1, nc + 1, 0, i, j => .cycle :: interleave cycleFirst fuel nc 0 (i + 1) j
  | fuel + 1, 0, nt + 1, i, j => .timerTick :: interleave cycleFirst fuel 0 nt i (j + 1)
  | fuel + 1, nc + 1, nt + 1, i, j =>
    if cycleFirst i j then .cycle :: interleave cycleFirst fuel nc (nt + 1) (i + 1) j
    else .timerTick :: interleave cycleFirst fuel (nc + 1) nt i (j + 1)

/-- The order of the events of one tick, `nc` cycles and `nt` timer ticks. -/
def tickOrder (cycleFirst : Nat → Nat → Bool) (nc nt : Nat) : List ClockEvent :=
  interleave cycleFirst (nc + nt) nc nt 0 0

/-- Clock events in order. -/
def runClock : List ClockEvent → State → Host.Outcome State Fault Refusal
  | [], s => .next s
  | .timerTick :: rest, s => runClock rest (timerTick s)
  | .cycle :: rest, s =>
    match cycle s with
    | .next t => runClock rest t
    | .fault f => .fault f
    | .refused r => .refused r

/-- The Clock's accumulators after the events of `tick(e)` that began in `s` (R284). -/
def clkAfter (s : State) (e : Time) : Clk :=
  ⟨s.clk.elapsed.add e, s.clk.cycles + cyclesDue s e, s.clk.ticks + ticksDue s e⟩

/-- `tick(e)` in a given order of its events, beginning in `s` (R284): the events, then the accumulators. -/
def tickWith (cycleFirst : Nat → Nat → Bool) (e : Time) (s : State) : Host.Outcome State Fault Refusal :=
  match runClock (tickOrder cycleFirst (cyclesDue s e) (ticksDue s e)) s with
  | .next t => .next { t with clk := clkAfter s e }
  | .fault f => .fault f
  | .refused r => .refused r

/-- `tick(e)` (R284): "the model admits every interleaving" (R285), so the order is drawn free (log 9). -/
def tick (e : Time) (s : State) : Host.Outcome State Fault Refusal :=
  tickWith (fun i j => Config.freeCycleFirst (s.draws + i + j)) e (s.drawn (cyclesDue s e + ticksDue s e))

/-- The reference schedule of R285: time order, cycle number `j` at `j / CYCLE_RATE_HZ` and timer tick number `m` at `m / 60`, both counted since reset;
"on equal times the timer tick goes first". -/
def referenceOrder (s : State) (i j : Nat) : Bool :=
  decide (((s.clk.cycles + i + 1 : Nat) : Rat) * Rate.timer.hz < ((s.clk.ticks + j + 1 : Nat) : Rat) * s.cfg.cycleRate.hz)

/-- `tick(e)` by the reference schedule, "for simulators and for the vectors" (R285). -/
def tickReference (e : Time) (s : State) : Host.Outcome State Fault Refusal :=
  tickWith (referenceOrder s) e s

/-- One clock event at its own port (R45). -/
def clockEvent (e : ClockEvent) (s : State) : Host.Outcome State Fault Refusal :=
  match e with
  | .cycle => cycle s
  | .timerTick => .next (timerTick s)

/-- One event at an in-port (R45, R294). -/
def hostEvent (ev : HostEvent) (s : State) : Host.Outcome State Fault Refusal :=
  match ev with
  | .clock e => clockEvent e s
  | .tick e => tick e s
  | .setKey k p => .next (setKey k p s)
  | .load rom => .next (loadRom rom s)
  | .reset => .next (resetEvent s)

/-- The next event: the first of the host's pending ones, or, where none is pending, a cycle (R274, log 10). -/
def nextEvent (s : State) : Host.Outcome State Fault Refusal :=
  match s.inputs with
  | [] => cycle s
  | ev :: rest => hostEvent ev { s with inputs := rest }

/-- An address whose fetch is in range: pc where its fetch is, the program's base otherwise. -/
def fetchablePc (pc : Word) : Word := if pc.toNat + 1 < memSize then pc else 0x200

/-- A word put where the next cycle fetches, with the CPU Running and no host event before that cycle (log 13, log 14). -/
def placeWord (s : State) (w : Word) : State :=
  { s with
    pc := fetchablePc s.pc, run := .running, inputs := [],
    mem := s.mem.writeList s.cfg.fontBase (fetchablePc s.pc).toNat [w.hiByte, w.loByte] }

end Sys2Proof.Machine
end

