-- ==== Sys2Proof/Machine/Step.lean ====
section
/-! DEFINITION. The step: one event of the block (R274), and the host's placing of an instruction where the step fetches it. -/

namespace Sys2Proof.Machine

/-- One event of the block: the next pending host event, or a cycle (R45, R130, R274). -/
def step (s : State) : Host.Outcome State Fault Refusal := nextEvent s

/-- The state in which the very next step fetches and runs the word whose bits are `w`, numbered as the opcode table numbers them. -/
def State.withFetchWord (s : State) (nbits w : Nat) : State := placeWord s (BitVec.ofNat 16 (w % 2 ^ nbits))

end Sys2Proof.Machine
end

