-- ==== Sys2Proof/Machine/Asm.lean ====
section
/-! DEFINITION. The assembler text of an instruction (R109). No operation of the machine reads it. -/

namespace Sys2Proof.Machine

/-- A hexadecimal digit, capital letters as in `VA`. -/
def hexDigit (k : Fin 16) : Char := ['0', '1', '2', '3', '4', '5', '6', '7', '8', '9', 'A', 'B', 'C', 'D', 'E', 'F'].getD k.val '0'

/-- The digits of a number, `width` of them, the most significant first. -/
def hexDigits : Nat → Nat → List Char
  | 0, _ => []
  | width + 1, v => hexDigits width (v / 16) ++ [hexDigit (Fin.ofNat 16 v)]

/-- An immediate: hexadecimal with `0x` (R109). -/
def hexText (width v : Nat) : String := String.ofList ('0' :: 'x' :: hexDigits width v)

/-- A register: `V0` to `VF` (R109). -/
def regText (x : Reg) : String := String.ofList ['V', hexDigit x]

/-- The text of an instruction in the operand forms of R103; SHR and SHL write `Vy` whatever SHIFT_SRC is (R109). -/
def asmText : Instr → String
  | .sys nnn => "SYS " ++ hexText 3 nnn.toNat
  | .cls => "CLS"
  | .ret => "RET"
  | .jp nnn => "JP " ++ hexText 3 nnn.toNat
  | .call nnn => "CALL " ++ hexText 3 nnn.toNat
  | .seImm x nn => "SE " ++ regText x ++ ", " ++ hexText 2 nn.toNat
  | .sneImm x nn => "SNE " ++ regText x ++ ", " ++ hexText 2 nn.toNat
  | .seReg x y => "SE " ++ regText x ++ ", " ++ regText y
  | .ldImm x nn => "LD " ++ regText x ++ ", " ++ hexText 2 nn.toNat
  | .addImm x nn => "ADD " ++ regText x ++ ", " ++ hexText 2 nn.toNat
  | .ldReg x y => "LD " ++ regText x ++ ", " ++ regText y
  | .orReg x y => "OR " ++ regText x ++ ", " ++ regText y
  | .andReg x y => "AND " ++ regText x ++ ", " ++ regText y
  | .xorReg x y => "XOR " ++ regText x ++ ", " ++ regText y
  | .addReg x y => "ADD " ++ regText x ++ ", " ++ regText y
  | .subReg x y => "SUB " ++ regText x ++ ", " ++ regText y
  | .shr x y => "SHR " ++ regText x ++ ", " ++ regText y
  | .subn x y => "SUBN " ++ regText x ++ ", " ++ regText y
  | .shl x y => "SHL " ++ regText x ++ ", " ++ regText y
  | .sneReg x y => "SNE " ++ regText x ++ ", " ++ regText y
  | .ldI nnn => "LD I, " ++ hexText 3 nnn.toNat
  | .jpV0 nnn => "JP V0, " ++ hexText 3 nnn.toNat
  | .rnd x nn => "RND " ++ regText x ++ ", " ++ hexText 2 nn.toNat
  | .drw x y n => "DRW " ++ regText x ++ ", " ++ regText y ++ ", " ++ hexText 1 n.val
  | .skp x => "SKP " ++ regText x
  | .sknp x => "SKNP " ++ regText x
  | .ldVxDt x => "LD " ++ regText x ++ ", DT"
  | .ldVxK x => "LD " ++ regText x ++ ", K"
  | .ldDtVx x => "LD DT, " ++ regText x
  | .ldStVx x => "LD ST, " ++ regText x
  | .addI x => "ADD I, " ++ regText x
  | .ldF x => "LD F, " ++ regText x
  | .ldB x => "LD B, " ++ regText x
  | .storeRegs x => "LD [I], " ++ regText x
  | .loadRegs x => "LD " ++ regText x ++ ", [I]"

end Sys2Proof.Machine
end

