-- ==== Sys2Proof/Safety.lean ====
section
/-! DEFINITION. What claims call a good state, the end of a run, and the invariant that every step keeps. -/

namespace Sys2Proof.Machine

/-- No fault has stopped the CPU (R141: Halted "never counts as a good final state"). -/
def Safe (s : State) : Prop := ∀ f, s.run ≠ .halted f

/-- The end of a run, for claims: Running, with pc on a `JP` to its own address (R141, D41). The hardware does not stop there. -/
def atEnd (s : State) : Bool :=
  decide (s.run = .running) && decide (s.pc.toNat ≤ 0x0FFE) &&
    match fetch16 s s.pc.toNat with
    | .ok w => w == (0x1#4 ++ s.pc.extractLsb' 0 12 : Word)
    | .error _ => false

/-- The Clock's counts are those of the elapsed time (R283, R284). -/
def ClockAgrees (s : State) : Prop :=
  s.clk.cycles = eventsBy s.clk.elapsed s.cfg.cycleRate ∧ s.clk.ticks = eventsBy s.clk.elapsed Rate.timer

/-- The invariant. -/
structure Inv (s : State) : Prop where
  /-- Memory is in canonical form. -/
  memory : s.mem.wf s.cfg.fontBase = true
  /-- "Invariant: depth never exceeds 16" (R35). -/
  stack  : s.depth ≤ stackDepth
  /-- A key is latched only while the CPU waits for one (R42, R288). -/
  latch  : s.latch ≠ none → ∃ x, s.run = .waitingForKey x
  /-- A recorded fault address is out of range (R270). -/
  fault  : ∀ a, s.run = .halted (.addressFault a) → memSize ≤ a
  /-- The Clock has run the events of the elapsed time (R283). -/
  clock  : ClockAgrees s

end Sys2Proof.Machine
end

