-- ==== Sys2Proof/Certificates/Slice0/Obligations.lean ====
section
/-! DEFINITION. The statements for the provers. Each docstring names the rules it formalises; where a clause rests on a decision of the spec or on a choice of
the model, it says so and the statement is 'derived'. -/

open Sys2Proof Sys2Proof.Machine

/-! ### Words the statements use -/

namespace Sys2Proof.Claims

/-- The word `oooo nnnn nnnn nnnn` (R100). -/
def wNNN (o : BitVec 4) (nnn : Addr12) : Word := o ++ nnn
/-- The word `oooo xxxx nnnn nnnn` (R100). -/
def wXNN (o : BitVec 4) (x : Reg) (nn : Byte) : Word := o ++ (BitVec.ofFin (w := 4) x ++ nn)
/-- The word `oooo xxxx yyyy nnnn` (R100). -/
def wXYN (o : BitVec 4) (x y : Reg) (n : BitVec 4) : Word := o ++ (BitVec.ofFin (w := 4) x ++ (BitVec.ofFin (w := 4) y ++ n))

/-- The illegal words, by the table of R104. -/
def Illegal (w : Word) : Prop :=
  (w.toNat / 4096 = 5 ∧ w.toNat % 16 ≠ 0) ∨ (w.toNat / 4096 = 9 ∧ w.toNat % 16 ≠ 0) ∨
  (w.toNat / 4096 = 8 ∧ w.toNat % 16 ∈ [0x8, 0x9, 0xA, 0xB, 0xC, 0xD, 0xF]) ∨
  (w.toNat / 4096 = 14 ∧ w.toNat % 256 ∉ [0x9E, 0xA1]) ∨
  (w.toNat / 4096 = 15 ∧ w.toNat % 256 ∉ [0x07, 0x0A, 0x15, 0x18, 0x1E, 0x29, 0x33, 0x55, 0x65])

/-- `t` is `s` with its register file after `WriteXF(x, result, flag)` (R170) and nothing else changed. -/
def AfterResultAndFlag (s t : State) (x : Reg) (result flag : Nat) : Prop :=
  t = { s with v := t.v } ∧
  ∀ r : Reg, t.v[r].toNat =
    if r = 15 then (if x = 15 ∧ s.cfg.vfOrder = .resultLast then result else flag)
    else if r = x then result else s.v[r].toNat

/-- `t` is `s` with its register file after a result of OR, AND or XOR: VF ← 0 only under LOGIC_VF = RESET (R174 to R176). -/
def AfterLogic (s t : State) (x : Reg) (result : Byte) : Prop :=
  t = { s with v := t.v } ∧
  ∀ r : Reg, t.v[r] =
    if s.cfg.logicVf = .reset ∧ r = 15 then (if x = 15 ∧ s.cfg.vfOrder = .resultLast then result else 0)
    else if r = x then result else s.v[r]

/-- `t` is `s` with some bytes of memory changed: the bytes from `a` on are those of the list, every other address reads as before. -/
def AfterBytes (s t : State) (a : Nat) (bs : List Byte) : Prop :=
  t = { s with mem := t.mem } ∧
  ∀ b, t.byteAt b = if a ≤ b ∧ b < a + bs.length then bs.getD (b - a) 0 else s.byteAt b

/-- I after IndexAdvance (R206). -/
def indexAfter (cfg : Config) (x : Reg) (i : Word) : Word :=
  match cfg.lsIndex with
  | .keep => i
  | .addXPlus1 => i + BitVec.ofNat 16 (x.val + 1)
  | .addX => i + BitVec.ofNat 16 x.val

/-- The pixel at column `px`, row `py` is one on which a set bit of the sprite of `n` rows at I lands, drawn at Vx, Vy: bit 7 leftmost, rows modulo 32,
columns not wrapped (R231). -/
def Covers (s : State) (x y : Reg) (n : Nat) (px : Fin 64) (py : Fin 32) : Prop :=
  ∃ r b, r < n ∧ b < 8 ∧ py.val = (s.v[y].toNat % 32 + r) % 32 ∧ px.val = s.v[x].toNat % 64 + b ∧
    (s.byteAt (s.i.toNat + r)).getLsbD (7 - b) = true

/-- The registers an instruction may change, VF as a flag register among them (R31). -/
def MayWriteReg (cfg : Config) : Instr → Reg → Prop
  | .ldImm x _, r | .addImm x _, r | .ldReg x _, r | .rnd x _, r | .ldVxDt x, r => r = x
  | .orReg x _, r | .andReg x _, r | .xorReg x _, r => r = x ∨ (r = 15 ∧ cfg.logicVf = .reset)
  | .addReg x _, r | .subReg x _, r | .shr x _, r | .subn x _, r | .shl x _, r => r = x ∨ r = 15
  | .drw _ _ _, r => r = 15
  | .loadRegs x, r => r ≤ x
  | _, _ => False

/-- The instructions that may change I (R36). -/
def MayWriteI (cfg : Config) : Instr → Prop
  | .ldI _ | .addI _ | .ldF _ => True
  | .storeRegs _ | .loadRegs _ => cfg.lsIndex ≠ .keep
  | _ => False

end Sys2Proof.Claims

open Sys2Proof.Claims

/-! ### Encoding -/

/-- Decoding the word of a well-formed instruction gives it back, with every operand at every value, and a decoder consumes exactly its two bytes
(R102, R103, R107, R110). -/
def Obligations.DecodeOfEncode : Prop :=
  ∀ i : Instr, i.wellFormed = true →
    decodeWord (encode i) = .ok i ∧ ∀ rest : List Byte, decodeBytes (encodeBytes i ++ rest) = .ok (i, rest)

/-- Every word that decodes is the word of a well-formed instruction, so no word has two readings and no bit of a word is dropped (R108). -/
def Obligations.EncodeOfDecode : Prop :=
  ∀ (w : Word) (i : Instr), decodeWord w = .ok i → i.wellFormed = true ∧ encode i = w

/-- The words of R104's table, and no others, are illegal (R104, the spec's decision D4). -/
def Obligations.IllegalWordsAreThoseOfTheTable : Prop :=
  ∀ w : Word, (Illegal w → decodeWord w = .error (.invalid w)) ∧ (¬ Illegal w → ∃ i, decodeWord w = .ok i)

/-- The source's own example words and the spec's examples of illegal and superset words decode as they say (R100, R103 to R105). -/
def Obligations.ExampleWordsDecode : Prop :=
  decodeWord 0x6A0F = .ok (.ldImm 0xA 0x0F) ∧ decodeWord 0x8AB4 = .ok (.addReg 0xA 0xB) ∧ decodeWord 0xF00A = .ok (.ldVxK 0) ∧
  decodeWord 0x00E0 = .ok .cls ∧ decodeWord 0x00EE = .ok .ret ∧ decodeWord 0x00FF = .ok (.sys 0x0FF) ∧
  decodeWord 0xB300 = .ok (.jpV0 0x300) ∧ decodeWord 0xD125 = .ok (.drw 1 2 5) ∧
  decodeWord 0xFFFF = .error (.invalid 0xFFFF) ∧ decodeWord 0x5122 = .error (.invalid 0x5122) ∧ decodeWord 0xF000 = .error (.invalid 0xF000)

/-! ### The cycle -/

/-- R134: after a successful fetch pc is advanced by 2 before the fetched word is decoded and executed, whatever the word is; and when the two bytes at pc are
those of a well-formed instruction, the step of a Running CPU with no pending host event is exec of it in the advanced state. -/
def Obligations.StepRunsTheDecodedInstruction : Prop :=
  ∀ s : State, s.inputs = [] → s.run = .running → s.pc.toNat + 1 < 4096 →
    step s = runWord (s.byteAt s.pc.toNat ++ s.byteAt (s.pc.toNat + 1)) { s with pc := s.pc + 2 } ∧
    ∀ i : Instr, i.wellFormed = true →
      s.byteAt s.pc.toNat = (encode i).extractLsb' 8 8 → s.byteAt (s.pc.toNat + 1) = (encode i).extractLsb' 0 8 →
      step s = exec i { s with pc := s.pc + 2 }

/-- R133 (the spec's decision D14): a fetch that reaches an address above 4095 halts with the first out-of-range address and changes nothing else, pc included. -/
def Obligations.FetchOutOfRangeHalts : Prop :=
  ∀ s : State, s.inputs = [] → s.run = .running → 4096 ≤ s.pc.toNat + 1 →
    step s = .next { s with run := .halted (.addressFault (if s.pc.toNat = 4095 then 4096 else s.pc.toNat)) }

/-- R135: an illegal word halts with InvalidOpcode(w), which the cycle returns; the pc advance stands and no other state changes. -/
def Obligations.IllegalWordHalts : Prop :=
  ∀ (s : State) (w : Word), s.inputs = [] → s.run = .running → s.pc.toNat + 1 < 4096 →
    s.byteAt s.pc.toNat = w.extractLsb' 8 8 → s.byteAt (s.pc.toNat + 1) = w.extractLsb' 0 8 →
    decodeWord w = .error (.invalid w) →
    ∃ t, step s = .next t ∧ t = { s with pc := s.pc + 2, run := .halted (.invalidOpcode w) } ∧ returned t = .error (.invalidOpcode w)

/-- R136: an instruction that completes leaves `run` Running, except that FX0A leaves WaitingForKey(x). -/
def Obligations.RunStateAfterAnInstruction : Prop :=
  ∀ (i : Instr) (s t : State), s.run = .running → exec i s = .next t → returned t = .ok () →
    ((∀ x, i ≠ .ldVxK x) → t.run = .running) ∧ (∀ x, i = .ldVxK x → t.run = .waitingForKey x)

/-- R131: in Halted(f) a cycle changes no state and returns Err(f), and only `reset` leaves Halted. -/
def Obligations.HaltedCycleChangesNothing : Prop :=
  ∀ (s : State) (f : Fault), s.run = .halted f →
    cycle s = .next s ∧ returned s = .error f ∧
    ∀ t, step s = .next t → t.run = .halted f ∨ ∃ rest, s.inputs = .reset :: rest

/-- R277: Halted is sticky: every later cycle and every later tick returns the same fault, and a tick does not advance pc. -/
def Obligations.HaltedIsSticky : Prop :=
  ∀ (s : State) (f : Fault), s.run = .halted f →
    (cycle s = .next s ∧ returned s = .error f) ∧
    ∀ e : Time, ∃ t, tick e s = .next t ∧ returned t = .error f ∧ t.pc = s.pc ∧ t.v = s.v ∧ t.i = s.i ∧ t.stack = s.stack ∧
      t.mem = s.mem ∧ t.fb = s.fb

/-- R132: in WaitingForKey a cycle does not fetch: it performs the key-wait completion, whatever bytes are at pc, leaves pc, and returns Ok. -/
def Obligations.WaitingCycleDoesNotFetch : Prop :=
  ∀ (s : State) (x : Reg), s.run = .waitingForKey x → s.inputs = [] →
    ∃ t, step s = .next t ∧ t = keyWaitComplete x s ∧ t.pc = s.pc ∧ returned t = .ok () ∧
      ∀ (m : Memory) (p : Word), ∃ u, step { s with mem := m, pc := p } = .next u ∧ u = { t with mem := m, pc := p }

/-- Faults are precise (R138, R275, the spec's decision D14): an instruction that ends Halted has changed nothing but `run`. -/
def Obligations.FaultsArePrecise : Prop :=
  ∀ (i : Instr) (s t : State) (f : Fault), s.run = .running → exec i s = .next t → t.run = .halted f →
    t = { s with run := .halted f }

/-- Which instruction raises which fault, and what the fault records (R270, whose codes are the spec's decision D15). -/
def Obligations.FaultsComeFromTheirInstructions : Prop :=
  ∀ (i : Instr) (s t : State) (f : Fault), s.run = .running → exec i s = .next t → t.run = .halted f →
    (∃ a, f = .addressFault a ∧ 4096 ≤ a ∧ s.i.toNat ≤ a ∧ faultCode f = 1 ∧
      ((∃ x y n, i = .drw x y n) ∨ (∃ x, i = .ldB x) ∨ (∃ x, i = .storeRegs x) ∨ (∃ x, i = .loadRegs x))) ∨
    (f = .stackOverflow ∧ faultCode f = 2 ∧ 16 ≤ s.depth ∧ ∃ nnn, i = .call nnn) ∨
    (f = .stackUnderflow ∧ faultCode f = 3 ∧ s.depth = 0 ∧ i = .ret) ∨
    (faultCode f = 4 ∧ s.cfg.sysPolicy = .fault ∧ ∃ nnn, i = .sys nnn ∧ f = .invalidOpcode (0x0#4 ++ nnn : Word))

/-- No step stops the model: every state, reachable or not, has a next state. That a CPU fault is taken as a next state is the model's choice (log 3, log 4). -/
def Obligations.EveryStepAnswersANextState : Prop :=
  (∀ s : State, ∃ t, step s = .next t) ∧ ∀ (i : Instr) (s : State), ∃ t, exec i s = .next t

/-! ### Memory and the stack -/

/-- R71, R72: one-byte reads and writes inside memory, and their faults outside it. The premise is the invariant's memory clause. -/
def Obligations.ByteReadsAndWrites : Prop :=
  ∀ (s : State) (a : Nat) (b : Byte), s.mem.wf s.cfg.fontBase = true →
    (a ≤ 4095 → memRead s a = .ok (s.byteAt a) ∧
      ∃ t, memWrite s a b = .ok t ∧ memRead t a = .ok b ∧ t = { s with mem := t.mem } ∧ ∀ c, c ≠ a → t.byteAt c = s.byteAt c) ∧
    (¬ a ≤ 4095 → memRead s a = .error (.addressFault a) ∧ memWrite s a b = .error (.addressFault a))

/-- The fetch is big-endian and not wrapped at the top of memory (R73, the spec's decision D13). -/
def Obligations.FetchIsBigEndian : Prop :=
  ∀ (s : State) (a : Nat),
    (a ≤ 4094 → ∃ w, fetch16 s a = .ok w ∧ w.toNat = 256 * (s.byteAt a).toNat + (s.byteAt (a + 1)).toNat) ∧
    (a = 4095 → fetch16 s a = .error (.addressFault 4096)) ∧
    (4096 ≤ a → fetch16 s a = .error (.addressFault a))

/-- A byte stored by one instruction is seen by the next fetch (R87, the spec's decision D29): LD [I] with x = 1 writes V0 and V1 over the word at pc, and the next
step runs that word. -/
def Obligations.FetchSeesTheStoreBeforeIt : Prop :=
  ∀ (s t : State), s.mem.wf s.cfg.fontBase = true → s.run = .running → s.inputs = [] → s.pc.toNat ≤ 4094 → s.i = s.pc →
    exec (.storeRegs 1) s = .next t → step t = runWord (s.v[(0 : Fin 16)] ++ s.v[(1 : Fin 16)]) { t with pc := s.pc + 2 }

/-- R160: push and pop, and their faults at depth 16 and 0; only CALL and RET use them; and an instruction that faults leaves the stack as it was. The premise is
the invariant's stack clause. -/
def Obligations.PushAndPop : Prop :=
  ∀ (s : State) (a : Word), s.depth ≤ 16 →
    (s.depth = 16 → push s a = .error .stackOverflow) ∧
    (s.depth ≠ 16 → ∃ t, push s a = .ok t ∧ t.depth = s.depth + 1 ∧ pop t = .ok (a, s)) ∧
    (s.depth = 0 → pop s = .error .stackUnderflow) ∧
    (∀ b rest, s.stack = b :: rest → pop s = .ok (b, { s with stack := rest })) ∧
    (∀ (i : Instr) (t : State), exec i s = .next t → (∀ nnn, i ≠ .call nnn) → i ≠ .ret → t.stack = s.stack) ∧
    (∀ (i : Instr) (t : State) (f : Fault), s.run = .running → exec i s = .next t → t.run = .halted f → t.stack = s.stack)

/-- CALL then RET returns to the instruction after the CALL with the stack as before, at every depth below 16; a 17th nested CALL and a RET on an empty stack
fail (R162). -/
def Obligations.CallThenRetReturns : Prop :=
  ∀ (s : State) (nnn : Addr12),
    (s.depth < 16 → ∃ t, exec (.call nnn) s = .next t ∧ t.depth = s.depth + 1 ∧ exec .ret t = .next s) ∧
    (s.depth = 16 → exec (.call nnn) s = .next { s with run := .halted .stackOverflow }) ∧
    (s.depth = 0 → exec .ret s = .next { s with run := .halted .stackUnderflow })

/-! ### Control flow. `s` is the state after the advance, so `s.pc` is the instruction's own address plus 2 -/

/-- SYS NNN (R150, the spec's decision D3). -/
def Obligations.SysFollowsItsPolicy : Prop :=
  ∀ (nnn : Addr12) (s : State), nnn ≠ 0x0E0 → nnn ≠ 0x0EE →
    decodeWord (wNNN 0x0#4 nnn) = .ok (.sys nnn) ∧
    (s.cfg.sysPolicy = .nop → exec (.sys nnn) s = .next s) ∧
    (s.cfg.sysPolicy = .fault → exec (.sys nnn) s = .next { s with run := .halted (.invalidOpcode (wNNN 0x0#4 nnn)) })

/-- R151: RET pops pc, whatever the address; on an empty stack it raises StackUnderflow. -/
def Obligations.RetPopsThePc : Prop :=
  (∀ w : Word, decodeWord w = .ok .ret ↔ w = 0x00EE) ∧
  ∀ s : State,
    (∀ a rest, s.stack = a :: rest → exec .ret s = .next { s with pc := a, stack := rest }) ∧
    (s.depth = 0 → exec .ret s = .next { s with run := .halted .stackUnderflow })

/-- R152: JP sets pc to the zero-extended address and raises nothing. -/
def Obligations.JpSetsThePc : Prop :=
  ∀ (nnn : Addr12) (s : State),
    decodeWord (wNNN 0x1#4 nnn) = .ok (.jp nnn) ∧
    ∃ t, exec (.jp nnn) s = .next t ∧ t.pc.toNat = nnn.toNat ∧ t = { s with pc := t.pc }

/-- R153: CALL pushes the address after itself and jumps; at depth 16 it raises StackOverflow and changes neither the stack nor pc. -/
def Obligations.CallPushesTheReturnAddress : Prop :=
  ∀ (nnn : Addr12) (s : State),
    decodeWord (wNNN 0x2#4 nnn) = .ok (.call nnn) ∧
    (s.depth < 16 → ∃ t, exec (.call nnn) s = .next t ∧ t.pc.toNat = nnn.toNat ∧ t = { s with pc := t.pc, stack := s.pc :: s.stack }) ∧
    (s.depth = 16 → exec (.call nnn) s = .next { s with run := .halted .stackOverflow })

/-- R154 to R157: the four skips on register values; no other state changes. With x = y, SE Vx, Vy always skips and SNE Vx, Vy never does. -/
def Obligations.SkipsOnRegisterValues : Prop :=
  ∀ (x y : Reg) (nn : Byte) (s : State),
    decodeWord (wXNN 0x3#4 x nn) = .ok (.seImm x nn) ∧ decodeWord (wXNN 0x4#4 x nn) = .ok (.sneImm x nn) ∧
    decodeWord (wXYN 0x5#4 x y 0x0#4) = .ok (.seReg x y) ∧ decodeWord (wXYN 0x9#4 x y 0x0#4) = .ok (.sneReg x y) ∧
    (∀ n, n ≠ 0x0#4 → decodeWord (wXYN 0x5#4 x y n) = .error (.invalid (wXYN 0x5#4 x y n)) ∧
      decodeWord (wXYN 0x9#4 x y n) = .error (.invalid (wXYN 0x9#4 x y n))) ∧
    exec (.seImm x nn) s = .next { s with pc := if s.v[x] = nn then s.pc + 2 else s.pc } ∧
    exec (.sneImm x nn) s = .next { s with pc := if s.v[x] = nn then s.pc else s.pc + 2 } ∧
    exec (.seReg x y) s = .next { s with pc := if s.v[x] = s.v[y] then s.pc + 2 else s.pc } ∧
    exec (.sneReg x y) s = .next { s with pc := if s.v[x] = s.v[y] then s.pc else s.pc + 2 }

/-- JP V0, NNN in both variants of JUMP_REG (R158, the spec's decision D9): the sum is exact, not wrapped to 12 bits. -/
def Obligations.JpV0AddsARegister : Prop :=
  ∀ (nnn : Addr12) (s : State),
    decodeWord (wNNN 0xB#4 nnn) = .ok (.jpV0 nnn) ∧
    ∃ t, exec (.jpV0 nnn) s = .next t ∧ t = { s with pc := t.pc } ∧
      (s.cfg.jumpReg = .v0 → t.pc.toNat = nnn.toNat + s.v[(0 : Fin 16)].toNat) ∧
      (s.cfg.jumpReg = .vx → ∀ x : Reg, x.val = nnn.toNat / 256 → t.pc.toNat = nnn.toNat + s.v[x].toNat)

/-! ### Register loads and the ALU -/

/-- R171, R172, R173: the loads and the addition of an immediate, which writes no flag and wraps modulo 256. -/
def Obligations.LoadsAndImmediateAdd : Prop :=
  ∀ (x y : Reg) (nn : Byte) (s : State),
    decodeWord (wXNN 0x6#4 x nn) = .ok (.ldImm x nn) ∧ decodeWord (wXNN 0x7#4 x nn) = .ok (.addImm x nn) ∧
    decodeWord (wXYN 0x8#4 x y 0x0#4) = .ok (.ldReg x y) ∧
    exec (.ldImm x nn) s = .next { s with v := s.v.set x nn } ∧
    exec (.addImm x nn) s = .next { s with v := s.v.set x (BitVec.ofNat 8 ((s.v[x].toNat + nn.toNat) % 256)) } ∧
    exec (.ldReg x y) s = .next { s with v := s.v.set x s.v[y] }

/-- OR, AND, XOR (R174 to R176, the spec's decision D8 for VF), bit by bit. -/
def Obligations.LogicOperations : Prop :=
  ∀ (x y : Reg) (s : State),
    decodeWord (wXYN 0x8#4 x y 0x1#4) = .ok (.orReg x y) ∧ decodeWord (wXYN 0x8#4 x y 0x2#4) = .ok (.andReg x y) ∧
    decodeWord (wXYN 0x8#4 x y 0x3#4) = .ok (.xorReg x y) ∧
    (∃ t r, exec (.orReg x y) s = .next t ∧ AfterLogic s t x r ∧
      ∀ k < 8, r.getLsbD k = (s.v[x].getLsbD k || s.v[y].getLsbD k)) ∧
    (∃ t r, exec (.andReg x y) s = .next t ∧ AfterLogic s t x r ∧
      ∀ k < 8, r.getLsbD k = (s.v[x].getLsbD k && s.v[y].getLsbD k)) ∧
    (∃ t r, exec (.xorReg x y) s = .next t ∧ AfterLogic s t x r ∧
      ∀ k < 8, r.getLsbD k = (s.v[x].getLsbD k ^^ s.v[y].getLsbD k))

/-- R177: ADD Vx, Vy, its sum modulo 256 and VF its unsigned carry. The order of the two writes when x = 15 is the parameter VF_ORDER (R170, the spec's
decision D7); the statement holds for both. -/
def Obligations.AddSetsTheCarry : Prop :=
  ∀ (x y : Reg) (s : State),
    decodeWord (wXYN 0x8#4 x y 0x4#4) = .ok (.addReg x y) ∧
    ∃ t, exec (.addReg x y) s = .next t ∧
      AfterResultAndFlag s t x ((s.v[x].toNat + s.v[y].toNat) % 256) (if s.v[x].toNat + s.v[y].toNat ≥ 256 then 1 else 0)

/-- R178, R180: SUB and SUBN, the difference modulo 256 and VF = 1 when no borrow occurs. VF_ORDER as in AddSetsTheCarry. -/
def Obligations.SubtractionsSetNoBorrow : Prop :=
  ∀ (x y : Reg) (s : State),
    decodeWord (wXYN 0x8#4 x y 0x5#4) = .ok (.subReg x y) ∧ decodeWord (wXYN 0x8#4 x y 0x7#4) = .ok (.subn x y) ∧
    (∃ t, exec (.subReg x y) s = .next t ∧
      AfterResultAndFlag s t x ((256 + s.v[x].toNat - s.v[y].toNat) % 256) (if s.v[x].toNat ≥ s.v[y].toNat then 1 else 0)) ∧
    (∃ t, exec (.subn x y) s = .next t ∧
      AfterResultAndFlag s t x ((256 + s.v[y].toNat - s.v[x].toNat) % 256) (if s.v[y].toNat ≥ s.v[x].toNat then 1 else 0))

/-- SHR and SHL in both variants of SHIFT_SRC (R179, R181, the spec's decision D5): VF is the bit shifted out of the source, and Vy itself is not changed
unless it is Vx or VF. -/
def Obligations.ShiftsMoveABitIntoVF : Prop :=
  ∀ (x y z : Reg) (s : State),
    (s.cfg.shiftSrc = .vy → z = y) → (s.cfg.shiftSrc = .vx → z = x) →
    decodeWord (wXYN 0x8#4 x y 0x6#4) = .ok (.shr x y) ∧ decodeWord (wXYN 0x8#4 x y 0xE#4) = .ok (.shl x y) ∧
    (∃ t, exec (.shr x y) s = .next t ∧ AfterResultAndFlag s t x (s.v[z].toNat / 2) (s.v[z].toNat % 2)) ∧
    (∃ t, exec (.shl x y) s = .next t ∧ AfterResultAndFlag s t x (2 * s.v[z].toNat % 256) (s.v[z].toNat / 128))

/-- RND: a free draw AND nn (R182, the spec's decision D24); the bits of Vx where nn is 0 are 0 under every draw, and the draw is spent. -/
def Obligations.RndMasksAFreeDraw : Prop :=
  ∀ (x : Reg) (nn : Byte) (s : State),
    decodeWord (wXNN 0xC#4 x nn) = .ok (.rnd x nn) ∧
    ∃ t, exec (.rnd x nn) s = .next t ∧ t.v[x] = Config.freeByte s.draws &&& nn ∧
      (∀ k, nn.getLsbD k = false → t.v[x].getLsbD k = false) ∧
      (∀ r, r ≠ x → t.v[r] = s.v[r]) ∧ t = { s with v := t.v, draws := s.draws + 1 }

/-! ### The index register and memory -/

/-- R200: LD I sets I to the zero-extended address. -/
def Obligations.LdISetsTheIndex : Prop :=
  ∀ (nnn : Addr12) (s : State),
    decodeWord (wNNN 0xA#4 nnn) = .ok (.ldI nnn) ∧
    ∃ t, exec (.ldI nnn) s = .next t ∧ t.i.toNat = nnn.toNat ∧ t = { s with i := t.i }

/-- ADD I (R201, the spec's decision D10): modulo 2^16, no flag, no fault. -/
def Obligations.AddIWrapsAtSixteenBits : Prop :=
  ∀ (x : Reg) (s : State),
    decodeWord (wXNN 0xF#4 x 0x1E#8) = .ok (.addI x) ∧
    ∃ t, exec (.addI x) s = .next t ∧ t.i.toNat = (s.i.toNat + s.v[x].toNat) % 65536 ∧ t = { s with i := t.i }

/-- LD F (R202, the spec's decisions D21 and D22): the glyph of the low nibble; in the state after construction the five bytes there are that digit's. -/
def Obligations.LdFPointsAtTheGlyph : Prop :=
  ∀ (x : Reg) (s : State),
    decodeWord (wXNN 0xF#4 x 0x29#8) = .ok (.ldF x) ∧
    ∃ t, exec (.ldF x) s = .next t ∧ t.i.toNat = s.cfg.fontBase.val + 5 * (s.v[x].toNat % 16) ∧ t = { s with i := t.i } ∧
      (s.mem = [] → ∀ k, k < 5 → t.byteAt (t.i.toNat + k) = fontBytes.getD (5 * (s.v[x].toNat % 16) + k) 0)

/-- R203: LD B stores the three decimal digits at I, I+1, I+2 and changes nothing else; where one of them is out of range it raises AddressFault for the first
that is. -/
def Obligations.LdBStoresDecimalDigits : Prop :=
  ∀ (x : Reg) (s : State), s.mem.wf s.cfg.fontBase = true →
    decodeWord (wXNN 0xF#4 x 0x33#8) = .ok (.ldB x) ∧
    (s.i.toNat + 2 < 4096 → ∃ t, exec (.ldB x) s = .next t ∧
      AfterBytes s t s.i.toNat
        [BitVec.ofNat 8 (s.v[x].toNat / 100), BitVec.ofNat 8 (s.v[x].toNat / 10 % 10), BitVec.ofNat 8 (s.v[x].toNat % 10)]) ∧
    (¬ s.i.toNat + 2 < 4096 → exec (.ldB x) s = .next { s with run := .halted (.addressFault (max s.i.toNat 4096)) })

/-- LD [I], Vx (R204, R206, the spec's decision D6): V0 to Vx at I to I+x, then IndexAdvance; where one address is out of range, the fault alone. -/
def Obligations.StoreRegsStoresUpToVx : Prop :=
  ∀ (x : Reg) (s : State), s.mem.wf s.cfg.fontBase = true →
    decodeWord (wXNN 0xF#4 x 0x55#8) = .ok (.storeRegs x) ∧
    (s.i.toNat + x.val < 4096 → ∃ t, exec (.storeRegs x) s = .next t ∧
      t = { s with mem := t.mem, i := indexAfter s.cfg x s.i } ∧
      (∀ r : Reg, r ≤ x → t.byteAt (s.i.toNat + r.val) = s.v[r]) ∧
      (∀ a, (a < s.i.toNat ∨ s.i.toNat + x.val < a) → t.byteAt a = s.byteAt a)) ∧
    (¬ s.i.toNat + x.val < 4096 → exec (.storeRegs x) s = .next { s with run := .halted (.addressFault (max s.i.toNat 4096)) })

/-- LD Vx, [I] (R205, R206, the spec's decision D6): V0 to Vx from I to I+x, then IndexAdvance; where one address is out of range, the fault alone. -/
def Obligations.LoadRegsLoadsUpToVx : Prop :=
  ∀ (x : Reg) (s : State),
    decodeWord (wXNN 0xF#4 x 0x65#8) = .ok (.loadRegs x) ∧
    (s.i.toNat + x.val < 4096 → ∃ t, exec (.loadRegs x) s = .next t ∧
      t = { s with v := t.v, i := indexAfter s.cfg x s.i } ∧
      ∀ r : Reg, t.v[r] = if r ≤ x then s.byteAt (s.i.toNat + r.val) else s.v[r]) ∧
    (¬ s.i.toNat + x.val < 4096 → exec (.loadRegs x) s = .next { s with run := .halted (.addressFault (max s.i.toNat 4096)) })

/-- LD [I], Vx and then LD Vx, [I] from the same I gives the register file back, under every LS_INDEX (R204, R205, R206). -/
def Obligations.StoreThenLoadRestoresRegisters : Prop :=
  ∀ (x : Reg) (s t : State) (v : Vector Byte 16), s.mem.wf s.cfg.fontBase = true → s.i.toNat + x.val < 4096 →
    exec (.storeRegs x) s = .next t → (∀ r : Reg, x < r → v[r] = s.v[r]) →
    exec (.loadRegs x) { t with v := v, i := s.i } = .next t

/-! ### Timers -/

/-- R220, R221, R222: the three timer instructions, and the sound output after FX18. -/
def Obligations.TimerInstructions : Prop :=
  ∀ (x : Reg) (s : State),
    decodeWord (wXNN 0xF#4 x 0x07#8) = .ok (.ldVxDt x) ∧ decodeWord (wXNN 0xF#4 x 0x15#8) = .ok (.ldDtVx x) ∧
    decodeWord (wXNN 0xF#4 x 0x18#8) = .ok (.ldStVx x) ∧
    exec (.ldVxDt x) s = .next { s with v := s.v.set x s.dt } ∧
    exec (.ldDtVx x) s = .next { s with dt := s.v[x] } ∧
    exec (.ldStVx x) s = .next { s with st := s.v[x] } ∧
    (sound { s with st := s.v[x] } = true ↔ s.v[x] ≠ 0)

/-- R223: no instruction decrements a timer: none but FX15 writes DT, none but FX18 writes ST, and each writes Vx. None but FX07 reads DT and none reads ST: with another
DT or another ST, every other instruction does the same to everything else. -/
def Obligations.TheCpuNeverDecrementsATimer : Prop :=
  ∀ (i : Instr) (s t : State) (b : Byte), exec i s = .next t →
    ((∀ x, i ≠ .ldDtVx x) → t.dt = s.dt) ∧ (∀ x, i = .ldDtVx x → t.dt = s.v[x]) ∧
    ((∀ x, i ≠ .ldStVx x) → t.st = s.st) ∧ (∀ x, i = .ldStVx x → t.st = s.v[x]) ∧
    ((∀ x, i ≠ .ldVxDt x) → ∃ u, exec i { s with dt := b } = .next u ∧ t = { u with dt := t.dt }) ∧
    ∃ u, exec i { s with st := b } = .next u ∧ t = { u with st := t.st }

/-- Any number of timer ticks: each timer counts toward zero and stays there, whatever `run` is, and nothing else changes (R37, R282, the spec's decision D16). -/
def Obligations.TimersCountToZero : Prop :=
  ∀ (n : Nat) (s : State),
    (timerTick^[n] s).dt.toNat = s.dt.toNat - n ∧ (timerTick^[n] s).st.toNat = s.st.toNat - n ∧
    timerTick^[n] s = { s with dt := (timerTick^[n] s).dt, st := (timerTick^[n] s).st }

/-! ### Display -/

/-- R230: CLS makes every pixel unlit and changes nothing else. -/
def Obligations.ClsClearsEveryPixel : Prop :=
  (∀ w : Word, decodeWord w = .ok .cls ↔ w = 0x00E0) ∧
  ∀ s : State, ∃ t, exec .cls s = .next t ∧ (∀ px py, pixel t.fb px py = false) ∧ t = { s with fb := t.fb }

/-- DRW pixel by pixel (R231, the spec's decision D23): exactly the pixels on which a set bit lands are flipped, and VF says whether one of them was lit; where a
row's address is out of range, the fault alone. With n = 0 nothing is read. -/
def Obligations.DrwFlipsTheCoveredPixels : Prop :=
  ∀ (x y : Reg) (n : Count) (s : State),
    decodeWord (wXYN 0xD#4 x y (BitVec.ofFin (w := 4) n)) = .ok (.drw x y n) ∧
    ((s.i.toNat + n.val ≤ 4096 ∨ n = 0) → ∃ t, exec (.drw x y n) s = .next t ∧ t = { s with v := t.v, fb := t.fb } ∧
      (∀ px py, Covers s x y n.val px py → pixel t.fb px py = !pixel s.fb px py) ∧
      (∀ px py, ¬ Covers s x y n.val px py → pixel t.fb px py = pixel s.fb px py) ∧
      (∀ r : Reg, r ≠ 15 → t.v[r] = s.v[r]) ∧
      ((∃ px py, Covers s x y n.val px py ∧ pixel s.fb px py = true) → t.v[(15 : Fin 16)] = 1) ∧
      ((∀ px py, Covers s x y n.val px py → pixel s.fb px py = false) → t.v[(15 : Fin 16)] = 0)) ∧
    (¬ (s.i.toNat + n.val ≤ 4096 ∨ n = 0) →
      exec (.drw x y n) s = .next { s with run := .halted (.addressFault (max s.i.toNat 4096)) })

/-- Drawing the same sprite at the same place twice gives the framebuffer back, and the second draw collides exactly when the first turned some pixel lit
(R232, derived there from R231). -/
def Obligations.DrawingTwiceRestoresTheScreen : Prop :=
  ∀ (x y : Reg) (n : Count) (s t : State), (s.i.toNat + n.val ≤ 4096 ∨ n = 0) → exec (.drw x y n) s = .next t →
    ∃ u, exec (.drw x y n) { t with v := s.v } = .next u ∧ u.fb = s.fb ∧
      (u.v[(15 : Fin 16)] = 1 ↔ ∃ px py, pixel s.fb px py = false ∧ pixel t.fb px py = true)

/-- R232's last sentence read as it stands, on any prior framebuffer: "For any sprite with at least one set bit that lands on screen, the second draw sets VF = 1".
By R231 it fails where the sprite lands on lit pixels only (log 32): this statement is expected to be refuted. -/
def Obligations.SecondDrawAlwaysCollides : Prop :=
  ∀ (x y : Reg) (n : Count) (s t u : State), (s.i.toNat + n.val ≤ 4096 ∨ n = 0) → (∃ px py, Covers s x y n.val px py) →
    exec (.drw x y n) s = .next t → exec (.drw x y n) { t with v := s.v } = .next u → u.v[(15 : Fin 16)] = 1

/-! ### Keypad -/

/-- R250, R251: SKP and SKNP test the key of the low nibble (R254, the spec's decision D21) and change pc alone. -/
def Obligations.SkipsOnAKey : Prop :=
  ∀ (x : Reg) (k : Key) (s : State), k.val = s.v[x].toNat % 16 →
    decodeWord (wXNN 0xE#4 x 0x9E#8) = .ok (.skp x) ∧ decodeWord (wXNN 0xE#4 x 0xA1#8) = .ok (.sknp x) ∧
    exec (.skp x) s = .next { s with pc := if s.key[k] = true then s.pc + 2 else s.pc } ∧
    exec (.sknp x) s = .next { s with pc := if s.key[k] = false then s.pc + 2 else s.pc }

/-- FX0A enters the wait, clears the latch and takes no key; the completion of the wait under EDGE and under LEVEL: which keys can be taken, what is stored, and that
nothing else changes (R252, R253, the spec's decision D20). The key that LEVEL takes is a free choice (log 8). -/
def Obligations.KeyWaitEntryAndCompletion : Prop :=
  ∀ (x : Reg) (s : State),
    decodeWord (wXNN 0xF#4 x 0x0A#8) = .ok (.ldVxK x) ∧
    exec (.ldVxK x) s = .next { s with latch := none, run := .waitingForKey x } ∧
    (s.run = .waitingForKey x → s.inputs = [] →
      (s.cfg.keyWait = .edge → ∀ k, s.latch = some k →
        step s = .next { s with v := s.v.set x (BitVec.ofNat 8 k.val), latch := none, run := .running }) ∧
      (s.cfg.keyWait = .edge → s.latch = none → step s = .next s) ∧
      (s.cfg.keyWait = .level → (∀ k : Key, s.key[k] = false) → step s = .next s) ∧
      (s.cfg.keyWait = .level → (∃ k : Key, s.key[k] = true) → ∃ k : Key, s.key[k] = true ∧
        step s = .next { s with v := s.v.set x (BitVec.ofNat 8 k.val), latch := none, run := .running, draws := s.draws + 1 }))

/-- set_key sets its key, and latches the first press seen while the CPU waits; a release, a press of a held key and a second press leave the latch (R287, R288, the
spec's decisions D20 and D34). -/
def Obligations.SetKeyLatchesTheFirstPress : Prop :=
  ∀ (k : Key) (p : Bool) (s : State),
    (∀ j : Key, (setKey k p s).key[j] = if j = k then p else s.key[j]) ∧
    ((p = true ∧ s.key[k] = false ∧ (∃ x, s.run = .waitingForKey x) ∧ s.latch = none) → (setKey k p s).latch = some k) ∧
    (¬ (p = true ∧ s.key[k] = false ∧ (∃ x, s.run = .waitingForKey x) ∧ s.latch = none) → (setKey k p s).latch = s.latch) ∧
    setKey k p s = { s with key := (setKey k p s).key, latch := (setKey k p s).latch }

/-- The out-ports: `sound` is the bit ST ≠ 0 (R286); poll_any_pressed answers a pressed key, none exactly when no key is pressed, and any pressed key can be the
answer (R289); get(x, y) is the pixel inside the grid and OutOfBounds outside it (R290, the spec's decision D33). -/
def Obligations.OutPortsReadTheState : Prop :=
  ∀ s : State,
    (sound s = true ↔ s.st.toNat ≠ 0) ∧
    (∀ k : Key, isPressed s k = s.key[k]) ∧
    (∀ c, pollAnyPressed c s = none ↔ ∀ k : Key, s.key[k] = false) ∧
    (∀ c k, pollAnyPressed c s = some k → s.key[k] = true) ∧
    (∀ k : Key, s.key[k] = true → ∃ c, pollAnyPressed c s = some k) ∧
    (∀ (x y : Nat) (hx : x < 64) (hy : y < 32), fbGet s x y = .ok (pixel s.fb ⟨x, hx⟩ ⟨y, hy⟩)) ∧
    (∀ x y : Nat, 64 ≤ x ∨ 32 ≤ y → fbGet s x y = .error .outOfBounds)

/-! ### The Clock and the host -/

/-- A tick of any CPU, a Running one too, runs exactly the events due, one after the other, and then updates the Clock (R283 to R285, the spec's decisions D17 and D19):
a `timerTick` of a list is the timer_tick event and a `cycle` of it the cycle event; where the Clock's counts are those of the elapsed time, the tick's next state is that
of a list with the cycles and timer ticks due, with the Clock's counts those of the new elapsed time. Which interleaving it is, the free draws decide (log 9). -/
def Obligations.TickRunsTheEventsDue : Prop :=
  (∀ s, runClock [] s = .next s) ∧
  (∀ l s, runClock (.timerTick :: l) s = runClock l (timerTick s)) ∧
  (∀ l s u, cycle s = .next u → runClock (.cycle :: l) s = runClock l u) ∧
  ∀ (s : State) (e : Time), ClockAgrees s →
    (s.clk.cycles + cyclesDue s e : Int) = ((s.clk.elapsed.secs + e.secs) * s.cfg.cycleRate.hz).floor ∧
    (s.clk.ticks + ticksDue s e : Int) = ((s.clk.elapsed.secs + e.secs) * 60).floor ∧
    ∃ l u t, l.count .cycle = cyclesDue s e ∧ l.count .timerTick = ticksDue s e ∧
      runClock l (s.drawn (cyclesDue s e + ticksDue s e)) = .next u ∧
      tick e s = .next t ∧ t = { u with clk := clkAfter s e } ∧
      t.clk.elapsed.secs = s.clk.elapsed.secs + e.secs ∧
      (t.clk.ticks : Int) = ((s.clk.elapsed.secs + e.secs) * 60).floor ∧
      (t.clk.cycles : Int) = ((s.clk.elapsed.secs + e.secs) * s.cfg.cycleRate.hz).floor

/-- The order of a tick's events has exactly the cycles and timer ticks due, and every interleaving of them is the order of some choice (R285, the spec's
decision D17). -/
def Obligations.TickOrdersAreTheInterleavings : Prop :=
  (∀ (first : Nat → Nat → Bool) (nc nt : Nat),
    (tickOrder first nc nt).count .cycle = nc ∧ (tickOrder first nc nt).count .timerTick = nt) ∧
  ∀ l : List ClockEvent, ∃ first, tickOrder first (l.count .cycle) (l.count .timerTick) = l

/-- A tick of a CPU that is Halted, waits under EDGE with no key latched, or waits under LEVEL with no key held runs its timer ticks and no instruction: DT and ST fall
by the number due, at the host's port and in every order of the events (R253, R282, R284, the spec's decisions D16, D17 and D20). The draws that the port spends on the
order are the model's own (log 9). -/
def Obligations.TickWhileNotRunning : Prop :=
  ∀ (e : Time) (s : State),
    ((∃ f, s.run = .halted f) ∨
      (∃ x, s.run = .waitingForKey x) ∧
        ((s.cfg.keyWait = .edge ∧ s.latch = none) ∨ (s.cfg.keyWait = .level ∧ ∀ k : Key, s.key[k] = false))) →
    (∃ t, hostEvent (.tick e) s = .next t ∧ t.dt.toNat = s.dt.toNat - ticksDue s e ∧ t.st.toNat = s.st.toNat - ticksDue s e ∧
      t = { s with dt := t.dt, st := t.st, clk := clkAfter s e, draws := s.draws + (cyclesDue s e + ticksDue s e) }) ∧
    ∀ first : Nat → Nat → Bool, ∃ t, tickWith first e s = .next t ∧ t.dt.toNat = s.dt.toNat - ticksDue s e ∧
      t.st.toNat = s.st.toNat - ticksDue s e ∧ t = { s with dt := t.dt, st := t.st, clk := clkAfter s e }

/-- Construction (R46, R310; the values marked d there are the spec's decisions D18, D25, D27 and the model's log 5, 12, 25): every part of the state, for every
configuration. -/
def Obligations.ConstructionState : Prop :=
  ∀ cfg : Config, ∃ s, s = State.construct cfg ∧ (∀ r : Reg, s.v[r] = 0) ∧ s.i = 0 ∧ s.pc = 0x200 ∧ s.depth = 0 ∧ s.dt = 0 ∧ s.st = 0 ∧
    s.run = .running ∧ (∀ px py, pixel s.fb px py = false) ∧ (∀ k : Key, s.key[k] = false) ∧ s.latch = none ∧
    s.clk.elapsed.secs = 0 ∧ s.clk.cycles = 0 ∧ s.clk.ticks = 0 ∧ s.cfg = cfg ∧
    (∀ d r, d < 16 → r < 5 → s.byteAt (cfg.fontBase.val + 5 * d + r) = fontBytes.getD (5 * d + r) 0) ∧
    (∀ a, (a < cfg.fontBase.val ∨ cfg.fontBase.val + 80 ≤ a) → s.byteAt a = 0)

/-- reset() (R311, the spec's decisions D18, D25 to D27): what it sets, and that memory, keys and configuration are kept. -/
def Obligations.ResetKeepsMemoryAndKeys : Prop :=
  ∀ s : State, ∃ t, hostEvent .reset s = .next t ∧ (∀ r : Reg, t.v[r] = 0) ∧ t.i = 0 ∧ t.pc = 0x200 ∧ t.depth = 0 ∧ t.dt = 0 ∧ t.st = 0 ∧
    t.run = .running ∧ t.latch = none ∧ (∀ px py, pixel t.fb px py = false) ∧ t.clk = ⟨⟨0, le_refl 0⟩, 0, 0⟩ ∧
    (∀ a, t.byteAt a = s.byteAt a) ∧ t.key = s.key ∧ t.cfg = s.cfg

/-- load of at most 3584 bytes (R313, the spec's decision D28): the ROM at 0x200, every other byte and the rest of the state unchanged. -/
def Obligations.LoadPutsTheRomAt0x200 : Prop :=
  ∀ (rom : List Byte) (s : State), s.mem.wf s.cfg.fontBase = true → rom.length ≤ 3584 →
    ∃ t, loadResult rom s = .ok t ∧ hostEvent (.load rom) s = .next t ∧ AfterBytes s t 0x200 rom

/-- R314: load of more than 3584 bytes changes no state and answers TooLarge; a ROM of exactly 3584 bytes fills 0x200 to 0xFFF; an empty ROM writes nothing. -/
def Obligations.LoadTooLargeChangesNothing : Prop :=
  ∀ (rom : List Byte) (s : State), s.mem.wf s.cfg.fontBase = true →
    (rom.length > 3584 → loadResult rom s = .error .tooLarge ∧ hostEvent (.load rom) s = .next s) ∧
    (rom.length = 3584 → ∃ t, loadResult rom s = .ok t ∧ ∀ a, 0x200 ≤ a → a ≤ 0xFFF → t.byteAt a = rom.getD (a - 0x200) 0) ∧
    loadResult [] s = .ok s

/-! ### Whole-machine rules -/

/-- What no instruction changes, and what only named ones do (R35, R40 to R42, R44, R77, R294): keys, Clock, configuration and pending host events never; the stack
only by CALL and RET; the framebuffer only by CLS and DRW; memory only by LD B and LD [I]; the latch only by FX0A; a draw spent only by RND. -/
def Obligations.WhatInstructionsLeaveUnchanged : Prop :=
  ∀ (i : Instr) (s t : State), exec i s = .next t →
    t.key = s.key ∧ t.clk = s.clk ∧ t.cfg = s.cfg ∧ t.inputs = s.inputs ∧
    ((∀ nnn, i ≠ .call nnn) → i ≠ .ret → t.stack = s.stack) ∧
    (i ≠ .cls → (∀ x y n, i ≠ .drw x y n) → t.fb = s.fb) ∧
    ((∀ x, i ≠ .ldB x) → (∀ x, i ≠ .storeRegs x) → ∀ a, t.byteAt a = s.byteAt a) ∧
    ((∀ x, i ≠ .ldVxK x) → t.latch = s.latch) ∧ ((∀ x nn, i ≠ .rnd x nn) → t.draws = s.draws)

/-- The registers and I: an instruction changes only those it names, VF as a flag register among them (R30, R31, R36). -/
def Obligations.RegistersChangeOnlyAsNamed : Prop :=
  ∀ (i : Instr) (s t : State), exec i s = .next t →
    (∀ r : Reg, ¬ MayWriteReg s.cfg i r → t.v[r] = s.v[r]) ∧ (¬ MayWriteI s.cfg i → t.i = s.i)

/-- The invariant of Safety.lean holds after construction with every configuration, so at State.reset (R46, R310). -/
def Obligations.InvariantAtConstruction : Prop :=
  (∀ cfg : Config, Inv (State.construct cfg)) ∧ Inv State.reset

/-- Every step keeps the invariant: canonical memory, at most 16 return addresses, a latch only during a wait, recorded fault addresses out of range, the Clock's
counts those of the elapsed time (R35, R42, R70, R270, R283). -/
def Obligations.EveryStepKeepsTheInvariant : Prop :=
  ∀ s t : State, Inv s → step s = .next t → Inv t ∧ t.cfg = s.cfg
end

