-- ==== Sys2Proof/Laws/Decode.lean ====
section
/-! SUPPORT. The fields of a word put together from fields, and a word as the sum of its nibbles: what decoding and encoding proofs cite. -/

namespace Sys2Proof

/-! ### Fields of the three patterns (R100) -/

section Forms

variable (o n : BitVec 4) (x y : Reg) (nn : Byte) (nnn : Addr12)

@[simp] theorem op_formNNN : (formNNN o nnn).op = o := by
  apply BitVec.eq_of_getLsbD_eq; intro i hi
  simp only [Word.op, formNNN, BitVec.getLsbD_extractLsb', BitVec.getLsbD_append]
  rw [if_neg (by omega)]; simp [hi]

@[simp] theorem nnn_formNNN : (formNNN o nnn).nnn = nnn := by
  apply BitVec.eq_of_getLsbD_eq; intro i hi
  simp only [Word.nnn, formNNN, BitVec.getLsbD_extractLsb', BitVec.getLsbD_append]
  rw [if_pos (by omega)]; simp [hi]

@[simp] theorem op_formXNN : (formXNN o x nn).op = o := by
  apply BitVec.eq_of_getLsbD_eq; intro i hi
  simp only [Word.op, formXNN, BitVec.getLsbD_extractLsb', BitVec.getLsbD_append]
  rw [if_neg (by omega)]; simp [hi]

@[simp] theorem x_formXNN : (formXNN o x nn).x = x := by
  suffices h : (formXNN o x nn).extractLsb' 8 4 = BitVec.ofFin (w := 4) x from congrArg BitVec.toFin h
  apply BitVec.eq_of_getLsbD_eq; intro i hi
  simp only [formXNN, BitVec.getLsbD_extractLsb', BitVec.getLsbD_append]
  rw [if_pos (by omega), if_neg (by omega)]; simp [hi]

@[simp] theorem nn_formXNN : (formXNN o x nn).nn = nn := by
  apply BitVec.eq_of_getLsbD_eq; intro i hi
  simp only [Word.nn, formXNN, BitVec.getLsbD_extractLsb', BitVec.getLsbD_append]
  rw [if_pos (by omega), if_pos (by omega)]; simp [hi]

@[simp] theorem op_formXYN : (formXYN o x y n).op = o := by
  apply BitVec.eq_of_getLsbD_eq; intro i hi
  simp only [Word.op, formXYN, BitVec.getLsbD_extractLsb', BitVec.getLsbD_append]
  rw [if_neg (by omega)]; simp [hi]

@[simp] theorem x_formXYN : (formXYN o x y n).x = x := by
  suffices h : (formXYN o x y n).extractLsb' 8 4 = BitVec.ofFin (w := 4) x from congrArg BitVec.toFin h
  apply BitVec.eq_of_getLsbD_eq; intro i hi
  simp only [formXYN, BitVec.getLsbD_extractLsb', BitVec.getLsbD_append]
  rw [if_pos (by omega), if_neg (by omega)]; simp [hi]

@[simp] theorem y_formXYN : (formXYN o x y n).y = y := by
  suffices h : (formXYN o x y n).extractLsb' 4 4 = BitVec.ofFin (w := 4) y from congrArg BitVec.toFin h
  apply BitVec.eq_of_getLsbD_eq; intro i hi
  simp only [formXYN, BitVec.getLsbD_extractLsb', BitVec.getLsbD_append]
  rw [if_pos (by omega), if_pos (by omega), if_neg (by omega)]; simp [hi]

@[simp] theorem n_formXYN : (formXYN o x y n).n = n := by
  apply BitVec.eq_of_getLsbD_eq; intro i hi
  simp only [Word.n, formXYN, BitVec.getLsbD_extractLsb', BitVec.getLsbD_append]
  rw [if_pos (by omega), if_pos (by omega), if_pos (by omega)]; simp [hi]

@[simp] theorem count_formXYN : (formXYN o x y n).count = n.toFin :=
  congrArg BitVec.toFin (n_formXYN o n x y)

end Forms

/-! ### A word is the pattern of its own fields -/

section Split

variable (w : Word)

theorem formNNN_fields : formNNN w.op w.nnn = w := by
  apply BitVec.eq_of_getLsbD_eq; intro i hi
  simp only [Word.op, Word.nnn, formNNN, BitVec.getLsbD_extractLsb', BitVec.getLsbD_append]
  split
  · simp [*]
  · rw [show 12 + (i - 12) = i by omega]; simp [show i - 12 < 4 by omega]

theorem formXNN_fields : formXNN w.op w.x w.nn = w := by
  apply BitVec.eq_of_getLsbD_eq; intro i hi
  simp only [Word.op, Word.x, Word.nn, formXNN, BitVec.ofFin_toFin, BitVec.getLsbD_extractLsb', BitVec.getLsbD_append]
  repeat' split
  · simp [*]
  · rw [show 8 + (i - 8) = i by omega]; simp [show i - 8 < 4 by omega]
  · rw [show 12 + (i - (4 + 8)) = i by omega]; simp [show i - (4 + 8) < 4 by omega]

theorem formXYN_fields : formXYN w.op w.x w.y w.n = w := by
  apply BitVec.eq_of_getLsbD_eq; intro i hi
  simp only [Word.op, Word.x, Word.y, Word.n, formXYN, BitVec.ofFin_toFin, BitVec.getLsbD_extractLsb', BitVec.getLsbD_append]
  repeat' split
  · simp [*]
  · rw [show 4 + (i - 4) = i by omega]; simp [show i - 4 < 4 by omega]
  · rw [show 8 + (i - (4 + 4)) = i by omega]; simp [show i - (4 + 4) < 4 by omega]
  · rw [show 12 + (i - (4 + (4 + 4))) = i by omega]; simp [show i - (4 + (4 + 4)) < 4 by omega]

/-- The two bytes of a word in storage order make the word (R73). -/
@[simp] theorem wordOfBytes_hi_lo : wordOfBytes w.hiByte w.loByte = w := by
  apply BitVec.eq_of_getLsbD_eq; intro i hi
  simp only [wordOfBytes, Word.hiByte, Word.loByte, BitVec.getLsbD_extractLsb', BitVec.getLsbD_append]
  split
  · simp [*]
  · rw [show 8 + (i - 8) = i by omega]; simp [show i - 8 < 8 by omega]

end Split

end Sys2Proof
end

