-- ==== Sys2Proof/Laws/Display.lean ====
section
/-! SUPPORT. A draw pixel by pixel: one toggle, one row, all rows (R231). -/

namespace Sys2Proof.Machine

/-- A toggle flips its own pixel and no other. -/
theorem pixel_togglePixel (fb : Framebuffer) (px qx : Fin 64) (py qy : Fin 32) :
    pixel (togglePixel fb px py) qx qy = if qx = px ∧ qy = py then !pixel fb px py else pixel fb qx qy := by
  unfold pixel togglePixel
  simp only [Fin.getElem_fin]
  by_cases hy : qy = py
  · subst hy
    simp only [Vector.getElem_set_self, Vector.getElem_set, and_true, Fin.ext_iff, eq_comm, pixel, Fin.getElem_fin]
  · have hne : py.val ≠ qy.val := fun h => hy (Fin.ext h.symm)
    simp only [Vector.getElem_set_ne _ _ hne, hy, and_false, if_false]

@[simp] theorem pixel_blankScreen (px : Fin 64) (py : Fin 32) : pixel blankScreen px py = false := by
  simp [pixel, blankScreen]

/-- Two framebuffers with the same pixels are the same. -/
theorem framebuffer_ext {a b : Framebuffer} (h : ∀ px py, pixel a px py = pixel b px py) : a = b := by
  apply Vector.ext; intro y hy
  apply Vector.ext; intro x hx
  exact h ⟨x, hx⟩ ⟨y, hy⟩

/-- What one step of a draw does, for a bit that lands on the pixels for which `hit` holds: it flips exactly those, and collides when one of them was lit. -/
def Draws (hit : Fin 64 → Fin 32 → Prop) (a b : Framebuffer × Bool) : Prop :=
  (∀ qx qy, pixel b.1 qx qy = true ↔ (if pixel a.1 qx qy = true then ¬ hit qx qy else hit qx qy)) ∧
  (b.2 = true ↔ a.2 = true ∨ ∃ qx qy, hit qx qy ∧ pixel a.1 qx qy = true)

theorem Draws.none (a : Framebuffer × Bool) : Draws (fun _ _ => False) a a := by
  constructor
  · intro qx qy; split <;> simp_all
  · simp

/-- Two draws that hit different pixels are one draw that hits both. -/
theorem Draws.comp {p q : Fin 64 → Fin 32 → Prop} {a b c : Framebuffer × Bool} (hab : Draws p a b) (hbc : Draws q b c)
    (hpq : ∀ x y, p x y → ¬ q x y) : Draws (fun x y => p x y ∨ q x y) a c := by
  constructor
  · intro qx qy
    rw [hbc.1]
    have h1 := hab.1 qx qy
    have h2 := hpq qx qy
    split at h1 <;> split <;> simp_all
  · rw [hbc.2, hab.2, or_assoc]
    refine or_congr_right ⟨?_, ?_⟩
    · rintro (⟨x, y, h, hl⟩ | ⟨x, y, h, hl⟩)
      · exact ⟨x, y, .inl h, hl⟩
      · refine ⟨x, y, .inr h, ?_⟩
        have h1 := (hab.1 x y).1 hl
        by_contra hn
        rw [if_neg hn] at h1
        exact hpq x y h1 h
    · rintro ⟨x, y, h | h, hl⟩
      · exact .inl ⟨x, y, h, hl⟩
      · refine .inr ⟨x, y, h, (hab.1 x y).2 ?_⟩
        rw [if_pos hl]
        exact fun hp => hpq x y hp h

theorem Draws.congr {p q : Fin 64 → Fin 32 → Prop} {a b : Framebuffer × Bool} (h : Draws p a b) (hpq : ∀ x y, p x y ↔ q x y) :
    Draws q a b := by
  have : p = q := by funext x y; exact propext (hpq x y)
  exact this ▸ h

theorem drawBit_draws (px : Nat) (py : Fin 32) (bit : Bool) (a : Framebuffer × Bool) :
    Draws (fun x y => x.val = px ∧ y = py ∧ bit = true) a (drawBit px py bit a) := by
  rw [drawBit]
  split
  · cases bit
    · exact (Draws.none a).congr (by simp)
    · constructor
      · intro qx qy
        simp only [if_true, pixel_togglePixel, Fin.ext_iff]
        by_cases h : qx.val = px ∧ qy.val = py.val
        · have hx : (⟨px, by assumption⟩ : Fin 64) = qx := Fin.ext h.1.symm
          have hy : py = qy := Fin.ext h.2.symm
          rw [if_pos h, hx, hy]
          simp [h.1]
        · rw [if_neg h]
          have : ¬ (qx.val = px ∧ qy.val = py.val ∧ True) := by tauto
          simp only [this, not_false_eq_true]
          cases pixel a.1 qx qy <;> simp
      · simp only [if_true, Bool.or_eq_true]
        refine or_congr_right ⟨fun h => ⟨_, _, ⟨rfl, rfl, trivial⟩, h⟩, ?_⟩
        rintro ⟨qx, qy, ⟨hx, rfl, -⟩, h⟩
        have : (⟨px, by assumption⟩ : Fin 64) = qx := Fin.ext hx.symm
        rw [this]; exact h
  · refine (Draws.none a).congr ?_
    intro x y
    constructor
    · exact False.elim
    · rintro ⟨h, -, -⟩; have := x.isLt; omega

theorem drawBits_draws (x0 : Nat) (py : Fin 32) (row : Byte) {k : Nat} (hk : k ≤ 8) (a : Framebuffer × Bool) :
    Draws (fun x y => y = py ∧ ∃ b, 8 - k ≤ b ∧ b < 8 ∧ x.val = x0 + b ∧ row.getLsbD (7 - b) = true) a (drawBits x0 py row k a) := by
  induction k generalizing a with
  | zero => exact (Draws.none a).congr fun x y => ⟨False.elim, by rintro ⟨-, b, h1, h2, -⟩; omega⟩
  | succ k ih =>
    refine ((drawBit_draws (x0 + (7 - k)) py (row.getLsbD k) a).comp (ih (by omega) _) ?_).congr ?_
    · rintro x y ⟨hx, -, -⟩ ⟨-, b, h1, h2, h3, -⟩; omega
    · intro x y
      constructor
      · rintro (⟨hx, rfl, hb⟩ | ⟨rfl, b, h1, h2, h3, h4⟩)
        · exact ⟨rfl, 7 - k, by omega, by omega, hx, by rwa [show 7 - (7 - k) = k by omega]⟩
        · exact ⟨rfl, b, by omega, h2, h3, h4⟩
      · rintro ⟨rfl, b, h1, h2, h3, h4⟩
        by_cases hb : b = 7 - k
        · subst hb
          exact .inl ⟨h3, rfl, by rwa [show 7 - (7 - k) = k by omega] at h4⟩
        · exact .inr ⟨rfl, b, by omega, h2, h3, h4⟩

/-- The pixels on which a sprite's set bits land: bit `b` from the left of row `r`, the column clipped at 64 and the row taken modulo 32 (R231). -/
def spriteHits (x0 y0 : Nat) (rows : List Byte) (x : Fin 64) (y : Fin 32) : Prop :=
  ∃ r b, r < rows.length ∧ b < 8 ∧ y.val = (y0 + r) % 32 ∧ x.val = x0 + b ∧ (rows.getD r 0).getLsbD (7 - b) = true

theorem drawRows_draws (x0 : Nat) {y0 : Nat} {rows : List Byte} (hl : rows.length ≤ 32) (a : Framebuffer × Bool) :
    Draws (spriteHits x0 y0 rows) a (drawRows x0 y0 rows a) := by
  induction rows generalizing y0 a with
  | nil => exact (Draws.none a).congr fun x y => ⟨False.elim, by rintro ⟨r, b, h, -⟩; simp at h⟩
  | cons row rest ih =>
    rw [List.length_cons] at hl
    refine ((drawBits_draws x0 (Fin.ofNat 32 y0) row le_rfl a).comp (ih (y0 := y0 + 1) (by omega) _) ?_).congr ?_
    · rintro x y ⟨hy, -⟩ ⟨r, b, hr, -, hy', -⟩
      subst hy
      simp only [Fin.ofNat] at hy'
      omega
    · intro x y
      constructor
      · rintro (⟨rfl, b, -, hb, hx, hv⟩ | ⟨r, b, hr, hb, hy, hx, hv⟩)
        · exact ⟨0, b, by simp, hb, rfl, hx, hv⟩
        · exact ⟨r + 1, b, by simpa using hr, hb, by rw [hy]; congr 1; omega, hx, hv⟩
      · rintro ⟨r, b, hr, hb, hy, hx, hv⟩
        cases r with
        | zero => exact .inl ⟨Fin.ext hy, b, by omega, hb, hx, hv⟩
        | succ r => exact .inr ⟨r, b, by simpa using hr, hb, by rw [hy]; congr 1; omega, hx, hv⟩

/-- A draw pixel by pixel: exactly the pixels hit change, and it collides exactly when one of them was lit (R231). -/
theorem drawSprite_spec (x0 y0 : Nat) {rows : List Byte} (hl : rows.length ≤ 32) (fb : Framebuffer) :
    (∀ x y, pixel (drawSprite x0 y0 rows fb).1 x y = true ↔
      (if pixel fb x y = true then ¬ spriteHits x0 y0 rows x y else spriteHits x0 y0 rows x y)) ∧
    ((drawSprite x0 y0 rows fb).2 = true ↔ ∃ x y, spriteHits x0 y0 rows x y ∧ pixel fb x y = true) := by
  have h := drawRows_draws x0 (y0 := y0) hl (fb, false)
  exact ⟨h.1, by simpa [drawSprite] using h.2⟩

end Sys2Proof.Machine
end

