-- ==== Sys2Proof/Laws/State.lean ====
section
/-! SUPPORT. What each named update of the state does to each field, so that no later proof unfolds a record update. -/

namespace Sys2Proof.Machine.State

variable (s : State)

/-! ### setV -/

@[simp] theorem setV_v (x : Reg) (b : Byte) : (s.setV x b).v = s.v.set x b := rfl
@[simp] theorem setV_i (x : Reg) (b : Byte) : (s.setV x b).i = s.i := rfl
@[simp] theorem setV_pc (x : Reg) (b : Byte) : (s.setV x b).pc = s.pc := rfl
@[simp] theorem setV_stack (x : Reg) (b : Byte) : (s.setV x b).stack = s.stack := rfl
@[simp] theorem setV_dt (x : Reg) (b : Byte) : (s.setV x b).dt = s.dt := rfl
@[simp] theorem setV_st (x : Reg) (b : Byte) : (s.setV x b).st = s.st := rfl
@[simp] theorem setV_run (x : Reg) (b : Byte) : (s.setV x b).run = s.run := rfl
@[simp] theorem setV_mem (x : Reg) (b : Byte) : (s.setV x b).mem = s.mem := rfl
@[simp] theorem setV_fb (x : Reg) (b : Byte) : (s.setV x b).fb = s.fb := rfl
@[simp] theorem setV_key (x : Reg) (b : Byte) : (s.setV x b).key = s.key := rfl
@[simp] theorem setV_latch (x : Reg) (b : Byte) : (s.setV x b).latch = s.latch := rfl
@[simp] theorem setV_clk (x : Reg) (b : Byte) : (s.setV x b).clk = s.clk := rfl
@[simp] theorem setV_cfg (x : Reg) (b : Byte) : (s.setV x b).cfg = s.cfg := rfl
@[simp] theorem setV_draws (x : Reg) (b : Byte) : (s.setV x b).draws = s.draws := rfl
@[simp] theorem setV_inputs (x : Reg) (b : Byte) : (s.setV x b).inputs = s.inputs := rfl

/-! ### setI -/

@[simp] theorem setI_v (a : Word) : (s.setI a).v = s.v := rfl
@[simp] theorem setI_i (a : Word) : (s.setI a).i = a := rfl
@[simp] theorem setI_pc (a : Word) : (s.setI a).pc = s.pc := rfl
@[simp] theorem setI_stack (a : Word) : (s.setI a).stack = s.stack := rfl
@[simp] theorem setI_dt (a : Word) : (s.setI a).dt = s.dt := rfl
@[simp] theorem setI_st (a : Word) : (s.setI a).st = s.st := rfl
@[simp] theorem setI_run (a : Word) : (s.setI a).run = s.run := rfl
@[simp] theorem setI_mem (a : Word) : (s.setI a).mem = s.mem := rfl
@[simp] theorem setI_fb (a : Word) : (s.setI a).fb = s.fb := rfl
@[simp] theorem setI_key (a : Word) : (s.setI a).key = s.key := rfl
@[simp] theorem setI_latch (a : Word) : (s.setI a).latch = s.latch := rfl
@[simp] theorem setI_clk (a : Word) : (s.setI a).clk = s.clk := rfl
@[simp] theorem setI_cfg (a : Word) : (s.setI a).cfg = s.cfg := rfl
@[simp] theorem setI_draws (a : Word) : (s.setI a).draws = s.draws := rfl
@[simp] theorem setI_inputs (a : Word) : (s.setI a).inputs = s.inputs := rfl

/-! ### setPc -/

@[simp] theorem setPc_v (a : Word) : (s.setPc a).v = s.v := rfl
@[simp] theorem setPc_i (a : Word) : (s.setPc a).i = s.i := rfl
@[simp] theorem setPc_pc (a : Word) : (s.setPc a).pc = a := rfl
@[simp] theorem setPc_stack (a : Word) : (s.setPc a).stack = s.stack := rfl
@[simp] theorem setPc_dt (a : Word) : (s.setPc a).dt = s.dt := rfl
@[simp] theorem setPc_st (a : Word) : (s.setPc a).st = s.st := rfl
@[simp] theorem setPc_run (a : Word) : (s.setPc a).run = s.run := rfl
@[simp] theorem setPc_mem (a : Word) : (s.setPc a).mem = s.mem := rfl
@[simp] theorem setPc_fb (a : Word) : (s.setPc a).fb = s.fb := rfl
@[simp] theorem setPc_key (a : Word) : (s.setPc a).key = s.key := rfl
@[simp] theorem setPc_latch (a : Word) : (s.setPc a).latch = s.latch := rfl
@[simp] theorem setPc_clk (a : Word) : (s.setPc a).clk = s.clk := rfl
@[simp] theorem setPc_cfg (a : Word) : (s.setPc a).cfg = s.cfg := rfl
@[simp] theorem setPc_draws (a : Word) : (s.setPc a).draws = s.draws := rfl
@[simp] theorem setPc_inputs (a : Word) : (s.setPc a).inputs = s.inputs := rfl

/-! ### setRun -/

@[simp] theorem setRun_v (r : RunState) : (s.setRun r).v = s.v := rfl
@[simp] theorem setRun_i (r : RunState) : (s.setRun r).i = s.i := rfl
@[simp] theorem setRun_pc (r : RunState) : (s.setRun r).pc = s.pc := rfl
@[simp] theorem setRun_stack (r : RunState) : (s.setRun r).stack = s.stack := rfl
@[simp] theorem setRun_dt (r : RunState) : (s.setRun r).dt = s.dt := rfl
@[simp] theorem setRun_st (r : RunState) : (s.setRun r).st = s.st := rfl
@[simp] theorem setRun_run (r : RunState) : (s.setRun r).run = r := rfl
@[simp] theorem setRun_mem (r : RunState) : (s.setRun r).mem = s.mem := rfl
@[simp] theorem setRun_fb (r : RunState) : (s.setRun r).fb = s.fb := rfl
@[simp] theorem setRun_key (r : RunState) : (s.setRun r).key = s.key := rfl
@[simp] theorem setRun_latch (r : RunState) : (s.setRun r).latch = s.latch := rfl
@[simp] theorem setRun_clk (r : RunState) : (s.setRun r).clk = s.clk := rfl
@[simp] theorem setRun_cfg (r : RunState) : (s.setRun r).cfg = s.cfg := rfl
@[simp] theorem setRun_draws (r : RunState) : (s.setRun r).draws = s.draws := rfl
@[simp] theorem setRun_inputs (r : RunState) : (s.setRun r).inputs = s.inputs := rfl

/-! ### setFb -/

@[simp] theorem setFb_v (fb : Framebuffer) : (s.setFb fb).v = s.v := rfl
@[simp] theorem setFb_i (fb : Framebuffer) : (s.setFb fb).i = s.i := rfl
@[simp] theorem setFb_pc (fb : Framebuffer) : (s.setFb fb).pc = s.pc := rfl
@[simp] theorem setFb_stack (fb : Framebuffer) : (s.setFb fb).stack = s.stack := rfl
@[simp] theorem setFb_dt (fb : Framebuffer) : (s.setFb fb).dt = s.dt := rfl
@[simp] theorem setFb_st (fb : Framebuffer) : (s.setFb fb).st = s.st := rfl
@[simp] theorem setFb_run (fb : Framebuffer) : (s.setFb fb).run = s.run := rfl
@[simp] theorem setFb_mem (fb : Framebuffer) : (s.setFb fb).mem = s.mem := rfl
@[simp] theorem setFb_fb (fb : Framebuffer) : (s.setFb fb).fb = fb := rfl
@[simp] theorem setFb_key (fb : Framebuffer) : (s.setFb fb).key = s.key := rfl
@[simp] theorem setFb_latch (fb : Framebuffer) : (s.setFb fb).latch = s.latch := rfl
@[simp] theorem setFb_clk (fb : Framebuffer) : (s.setFb fb).clk = s.clk := rfl
@[simp] theorem setFb_cfg (fb : Framebuffer) : (s.setFb fb).cfg = s.cfg := rfl
@[simp] theorem setFb_draws (fb : Framebuffer) : (s.setFb fb).draws = s.draws := rfl
@[simp] theorem setFb_inputs (fb : Framebuffer) : (s.setFb fb).inputs = s.inputs := rfl

/-! ### setMem -/

@[simp] theorem setMem_v (m : Memory) : (s.setMem m).v = s.v := rfl
@[simp] theorem setMem_i (m : Memory) : (s.setMem m).i = s.i := rfl
@[simp] theorem setMem_pc (m : Memory) : (s.setMem m).pc = s.pc := rfl
@[simp] theorem setMem_stack (m : Memory) : (s.setMem m).stack = s.stack := rfl
@[simp] theorem setMem_dt (m : Memory) : (s.setMem m).dt = s.dt := rfl
@[simp] theorem setMem_st (m : Memory) : (s.setMem m).st = s.st := rfl
@[simp] theorem setMem_run (m : Memory) : (s.setMem m).run = s.run := rfl
@[simp] theorem setMem_mem (m : Memory) : (s.setMem m).mem = m := rfl
@[simp] theorem setMem_fb (m : Memory) : (s.setMem m).fb = s.fb := rfl
@[simp] theorem setMem_key (m : Memory) : (s.setMem m).key = s.key := rfl
@[simp] theorem setMem_latch (m : Memory) : (s.setMem m).latch = s.latch := rfl
@[simp] theorem setMem_clk (m : Memory) : (s.setMem m).clk = s.clk := rfl
@[simp] theorem setMem_cfg (m : Memory) : (s.setMem m).cfg = s.cfg := rfl
@[simp] theorem setMem_draws (m : Memory) : (s.setMem m).draws = s.draws := rfl
@[simp] theorem setMem_inputs (m : Memory) : (s.setMem m).inputs = s.inputs := rfl

/-! ### drawn -/

@[simp] theorem drawn_v (k : Nat) : (s.drawn k).v = s.v := rfl
@[simp] theorem drawn_i (k : Nat) : (s.drawn k).i = s.i := rfl
@[simp] theorem drawn_pc (k : Nat) : (s.drawn k).pc = s.pc := rfl
@[simp] theorem drawn_stack (k : Nat) : (s.drawn k).stack = s.stack := rfl
@[simp] theorem drawn_dt (k : Nat) : (s.drawn k).dt = s.dt := rfl
@[simp] theorem drawn_st (k : Nat) : (s.drawn k).st = s.st := rfl
@[simp] theorem drawn_run (k : Nat) : (s.drawn k).run = s.run := rfl
@[simp] theorem drawn_mem (k : Nat) : (s.drawn k).mem = s.mem := rfl
@[simp] theorem drawn_fb (k : Nat) : (s.drawn k).fb = s.fb := rfl
@[simp] theorem drawn_key (k : Nat) : (s.drawn k).key = s.key := rfl
@[simp] theorem drawn_latch (k : Nat) : (s.drawn k).latch = s.latch := rfl
@[simp] theorem drawn_clk (k : Nat) : (s.drawn k).clk = s.clk := rfl
@[simp] theorem drawn_cfg (k : Nat) : (s.drawn k).cfg = s.cfg := rfl
@[simp] theorem drawn_draws (k : Nat) : (s.drawn k).draws = s.draws + k := rfl
@[simp] theorem drawn_inputs (k : Nat) : (s.drawn k).inputs = s.inputs := rfl

/-! ### Registers -/

@[simp] theorem getV_eq (x : Reg) : s.getV x = s.v[x] := rfl

/-- A register file with one register set, register by register. -/
theorem getElem_setReg (v : Vector Byte 16) (x r : Reg) (b : Byte) : (v.set x b)[r] = if r = x then b else v[r] := by
  simp only [Fin.getElem_fin, Vector.getElem_set, Fin.ext_iff, eq_comm]

/-- A register written is read back, and every other register is as it was (R12, R30). -/
theorem getElem_setV (x r : Reg) (b : Byte) : (s.setV x b).v[r] = if r = x then b else s.v[r] := by
  simp only [setV_v, Fin.getElem_fin, Vector.getElem_set, Fin.ext_iff, eq_comm]

@[simp] theorem advance_eq : s.advance = s.setPc (s.pc + 2) := rfl

/-- A skip changes pc alone (R159). -/
theorem skipIf_eq (c : Bool) : s.skipIf c = s.setPc (if c then s.pc + 2 else s.pc) := by
  cases c <;> rfl

/-- The byte an address holds depends on memory and the font's place alone. -/
theorem byteAt_congr (t : State) (hm : t.mem = s.mem) (hc : t.cfg = s.cfg) (a : Nat) : t.byteAt a = s.byteAt a := by
  simp only [byteAt, hm, hc]

end Sys2Proof.Machine.State
end

