-- ==== Sys2Proof/Laws/Flags.lean ====
section
/-! SUPPORT. The register file after a result and a flag are written, register by register (R170), and the other fields. -/

namespace Sys2Proof.Machine

variable (s : State) (x r : Reg) (b : Byte) (c : Bool)

/-- `WriteXF` register by register: VF ends as the flag unless the destination is VF and the result lands last (R170). -/
theorem getElem_writeXF :
    (writeXF s x b c).v[r] =
      if r = Reg.vf then (if x = Reg.vf ∧ s.cfg.vfOrder = .resultLast then b else flagByte c)
      else if r = x then b else s.v[r] := by
  cases h : s.cfg.vfOrder <;> simp only [writeXF, h, State.getElem_setReg, reduceCtorEq, and_false, and_true, if_false]
  by_cases hr : r = Reg.vf
  · subst hr; simp [eq_comm]
  · simp [hr]

/-- `WriteXF` changes the register file alone. -/
theorem writeXF_eq : writeXF s x b c = { s with v := (writeXF s x b c).v } := rfl

/-- The result of OR, AND and XOR changes the register file alone (R174 to R176). -/
theorem writeLogic_eq : writeLogic s x b = { s with v := (writeLogic s x b).v } := rfl

/-- The register file after OR, AND and XOR, register by register. -/
theorem getElem_writeLogic :
    (writeLogic s x b).v[r] =
      if s.cfg.logicVf = .reset ∧ r = Reg.vf then (if x = Reg.vf ∧ s.cfg.vfOrder = .resultLast then b else 0)
      else if r = x then b else s.v[r] := by
  cases h : s.cfg.logicVf <;>
    simp only [writeLogic, h, State.getElem_setReg, getElem_writeXF, reduceCtorEq, false_and, true_and, if_false, flagByte,
      Bool.false_eq_true]

/-- IndexAdvance changes I alone (R206). -/
theorem indexAdvance_eq : indexAdvance x s = { s with i := (indexAdvance x s).i } := rfl

end Sys2Proof.Machine
end

