-- ==== Sys2Proof/Laws/Memory.lean ====
section
/-! SUPPORT. Memory as cells: a byte written is read back, every other address is as it was, and every operation keeps the canonical form (R70 to R74). -/

namespace Sys2Proof.Machine.Memory

variable {base : Fin 433} {m : Memory} {a b lo : Nat} {v : Byte}

/-! ### The canonical form -/

theorem wfFrom_cons {k : Nat} {c : Byte} {rest : Memory} :
    wfFrom base lo ((k, c) :: rest) = true ↔ lo ≤ k ∧ k < memSize ∧ c ≠ unlisted base k ∧ wfFrom base (k + 1) rest = true := by
  simp [wfFrom, and_assoc]

theorem wfFrom_mono {lo' : Nat} (h : lo' ≤ lo) (hm : wfFrom base lo m = true) : wfFrom base lo' m = true := by
  cases m with
  | nil => rfl
  | cons p rest =>
    obtain ⟨k, c⟩ := p
    rw [wfFrom_cons] at hm ⊢
    exact ⟨by omega, hm.2⟩

/-- An address below every cell reads as unlisted. -/
theorem read_below (hm : wfFrom base lo m = true) (h : a < lo) : m.read base a = unlisted base a := by
  induction m generalizing lo with
  | nil => rfl
  | cons p rest ih =>
    obtain ⟨k, c⟩ := p
    rw [wfFrom_cons] at hm
    rw [read, if_neg (by omega)]
    exact ih hm.2.2.2 (by omega)

theorem wfFrom_put (hm : wfFrom base lo m = true) (hlo : lo ≤ a) (ha : a < memSize) (hv : v ≠ unlisted base a) :
    wfFrom base lo (m.put a v) = true := by
  induction m generalizing lo with
  | nil => exact wfFrom_cons.2 ⟨hlo, ha, hv, rfl⟩
  | cons p rest ih =>
    obtain ⟨k, c⟩ := p
    have hm' := wfFrom_cons.1 hm
    rw [put]
    split
    · exact wfFrom_cons.2 ⟨hlo, ha, hv, wfFrom_cons.2 ⟨by omega, hm'.2⟩⟩
    · split
      · exact wfFrom_cons.2 ⟨hlo, ha, hv, by subst a; exact hm'.2.2.2⟩
      · exact wfFrom_cons.2 ⟨hm'.1, hm'.2.1, hm'.2.2.1, ih hm'.2.2.2 (by omega)⟩

theorem wfFrom_erase (hm : wfFrom base lo m = true) : wfFrom base lo (m.erase a) = true := by
  induction m generalizing lo with
  | nil => rfl
  | cons p rest ih =>
    obtain ⟨k, c⟩ := p
    have hm' := wfFrom_cons.1 hm
    rw [erase]
    split
    · exact wfFrom_mono (by omega) hm'.2.2.2
    · exact wfFrom_cons.2 ⟨hm'.1, hm'.2.1, hm'.2.2.1, ih hm'.2.2.2⟩

/-- A write inside memory keeps the canonical form. -/
theorem wf_write (hm : m.wf base = true) (ha : a < memSize) : (m.write base a v).wf base = true := by
  rw [wf, write]
  split
  · exact wfFrom_erase hm
  · exact wfFrom_put hm (Nat.zero_le a) ha (by assumption)

/-- Writing a list of bytes that fits keeps the canonical form. -/
theorem wf_writeList {bs : List Byte} (hm : m.wf base = true) (ha : a + bs.length ≤ memSize) :
    (m.writeList base a bs).wf base = true := by
  induction bs generalizing m a with
  | nil => exact hm
  | cons c rest ih =>
    rw [List.length_cons] at ha
    exact ih (wf_write hm (by omega)) (by omega)

/-! ### Reading after writing -/

theorem read_put : (m.put a v).read base b = if b = a then v else m.read base b := by
  induction m with
  | nil => simp only [put, read, eq_comm]
  | cons p rest ih =>
    obtain ⟨k, c⟩ := p
    rw [put]
    split
    · simp only [read, eq_comm]
    · split
      · subst k; simp only [read, eq_comm]; split <;> rfl
      · simp only [read, ih]
        split <;> split <;> first | rfl | omega

theorem read_erase (hm : wfFrom base lo m = true) :
    (m.erase a).read base b = if b = a then unlisted base a else m.read base b := by
  induction m generalizing lo with
  | nil => simp only [erase, read]; split <;> simp_all
  | cons p rest ih =>
    obtain ⟨k, c⟩ := p
    have hm' := wfFrom_cons.1 hm
    rw [erase]
    split
    · subst k
      split
      · subst b; exact read_below hm'.2.2.2 (by omega)
      · rw [read, if_neg (by omega)]
    · simp only [read, ih hm'.2.2.2]
      split <;> split <;> first | rfl | omega

/-- A byte written is read back, and every other address is as it was (R71, R72, R74). -/
theorem read_write (hm : m.wf base = true) : (m.write base a v).read base b = if b = a then v else m.read base b := by
  rw [write]
  split
  · subst v; exact read_erase hm
  · exact read_put

/-- Bytes written at consecutive addresses are read back, and every other address is as it was. -/
theorem read_writeList {bs : List Byte} (hm : m.wf base = true) (ha : a + bs.length ≤ memSize) :
    (m.writeList base a bs).read base b = if a ≤ b ∧ b < a + bs.length then bs.getD (b - a) 0 else m.read base b := by
  induction bs generalizing m a with
  | nil => rw [writeList, if_neg]; simp
  | cons c rest ih =>
    rw [List.length_cons] at ha ⊢
    rw [writeList, ih (wf_write hm (by omega)) (by omega), read_write hm]
    by_cases h1 : b = a
    · subst b; simp
    · by_cases h2 : a + 1 ≤ b ∧ b < a + 1 + rest.length
      · rw [if_pos h2, if_pos (by omega), show b - a = (b - (a + 1)) + 1 by omega]; rfl
      · rw [if_neg h2, if_neg h1, if_neg (by omega)]

end Sys2Proof.Machine.Memory
end

