-- ==== Sys2Proof/Laws/Ops.lean ====
section
/-! SUPPORT. What each shared operation over memory and the stack can do, said once (R71 to R73, R77, R138, R160). -/

namespace Sys2Proof.Machine

variable {s t : State} {a : Nat} {f : Fault}

/-! ### One byte -/

theorem memRead_of_lt (h : a < memSize) : memRead s a = .ok (s.byteAt a) := if_pos h
theorem memRead_of_le (h : memSize ≤ a) : memRead s a = .error (.addressFault a) := if_neg (by omega)

theorem memWrite_of_lt {b : Byte} (h : a < memSize) :
    memWrite s a b = .ok (s.setMem (s.mem.write s.cfg.fontBase a b)) := if_pos h
theorem memWrite_of_le {b : Byte} (h : memSize ≤ a) : memWrite s a b = .error (.addressFault a) := if_neg (by omega)

/-! ### Several bytes at consecutive addresses (R77, R139) -/

/-- Reads that fit answer the bytes in order. -/
theorem readBytes_ok {n : Nat} (h : a + n ≤ memSize ∨ n = 0) :
    readBytes s a n = .ok ((List.range' a n).map s.byteAt) := by
  induction n generalizing a with
  | zero => rfl
  | succ n ih =>
    rw [readBytes, memRead_of_lt (by omega), ih (by omega)]
    simp [List.range'_succ]

/-- Reads that do not fit raise the fault of the lowest out-of-range address. -/
theorem readBytes_error {n : Nat} (h : memSize < a + n) (hn : n ≠ 0) :
    readBytes s a n = .error (.addressFault (max a memSize)) := by
  induction n generalizing a with
  | zero => exact absurd rfl hn
  | succ n ih =>
    rw [readBytes]
    by_cases ha : a < memSize
    · rw [memRead_of_lt ha, ih (by omega) (by omega), show max (a + 1) memSize = max a memSize by omega]
    · rw [memRead_of_le (by omega), show max a memSize = a by omega]

/-- Writes that fit write the bytes in order. -/
theorem writeBytes_ok {bs : List Byte} (h : a + bs.length ≤ memSize ∨ bs = []) :
    writeBytes s a bs = .ok (s.setMem (s.mem.writeList s.cfg.fontBase a bs)) := by
  induction bs generalizing s a with
  | nil => rfl
  | cons b bs ih =>
    simp only [List.length_cons, reduceCtorEq, or_false] at h
    rw [writeBytes, memWrite_of_lt (by omega)]
    exact ih (.inl (by omega))

/-- Writes that do not fit raise the fault of the lowest out-of-range address. -/
theorem writeBytes_error {bs : List Byte} (h : memSize < a + bs.length) (hb : bs ≠ []) :
    writeBytes s a bs = .error (.addressFault (max a memSize)) := by
  induction bs generalizing s a with
  | nil => exact absurd rfl hb
  | cons b bs ih =>
    rw [List.length_cons] at h
    rw [writeBytes]
    by_cases ha : a < memSize
    · rw [memWrite_of_lt ha]
      dsimp only
      rw [ih (by omega) (by rintro rfl; simp at h; omega), show max (a + 1) memSize = max a memSize by omega]
    · rw [memWrite_of_le (by omega), show max a memSize = a by omega]

/-- The byte at an address after bytes that fit are written. -/
theorem byteAt_writeList {bs : List Byte} {b : Nat} (hm : s.mem.wf s.cfg.fontBase = true) (h : a + bs.length ≤ memSize) :
    (s.setMem (s.mem.writeList s.cfg.fontBase a bs)).byteAt b
      = if a ≤ b ∧ b < a + bs.length then bs.getD (b - a) 0 else s.byteAt b :=
  Memory.read_writeList hm h

/-- A fault raised by reads or writes records an out-of-range address. -/
theorem readBytes_fault {n : Nat} (h : readBytes s a n = .error f) : ∃ b, f = .addressFault b ∧ memSize ≤ b := by
  by_cases hf : a + n ≤ memSize ∨ n = 0
  · rw [readBytes_ok hf] at h; cases h
  · rw [readBytes_error (by omega) (by omega)] at h
    injection h with h
    exact ⟨_, h.symm, by omega⟩

theorem writeBytes_fault {bs : List Byte} (h : writeBytes s a bs = .error f) : ∃ b, f = .addressFault b ∧ memSize ≤ b := by
  by_cases hf : a + bs.length ≤ memSize ∨ bs = []
  · rw [writeBytes_ok hf] at h; cases h
  · rw [writeBytes_error (by omega) (by tauto)] at h
    injection h with h
    exact ⟨_, h.symm, by omega⟩

/-! ### The fetch (R73) -/

theorem fetch16_ok (h : a + 1 < memSize) : fetch16 s a = .ok (wordOfBytes (s.byteAt a) (s.byteAt (a + 1))) := by
  rw [fetch16, memRead_of_lt (by omega), memRead_of_lt h]

theorem fetch16_error (h : memSize ≤ a + 1) : fetch16 s a = .error (.addressFault (max a memSize)) := by
  rw [fetch16]
  by_cases ha : a < memSize
  · rw [memRead_of_lt ha, memRead_of_le h, show max a memSize = a + 1 by omega]
  · rw [memRead_of_le (by omega), show max a memSize = a by omega]

/-! ### The stack (R160) -/

theorem push_cases (s : State) (w : Word) :
    (s.depth < stackDepth ∧ push s w = .ok { s with stack := w :: s.stack }) ∨
    (stackDepth ≤ s.depth ∧ push s w = .error .stackOverflow) := by
  rw [push]
  split
  · exact .inr ⟨by assumption, rfl⟩
  · exact .inl ⟨by omega, rfl⟩

theorem pop_cases (s : State) :
    (∃ w rest, s.stack = w :: rest ∧ pop s = .ok (w, { s with stack := rest })) ∨
    (s.stack = [] ∧ pop s = .error .stackUnderflow) := by
  rw [pop]
  split
  · exact .inr ⟨by assumption, rfl⟩
  · exact .inl ⟨_, _, by assumption, rfl⟩

/-! ### The end of an instruction (R137, R138) -/

@[simp] theorem commit_ok : commit s (.ok t) = .next t := rfl
@[simp] theorem commit_error : commit s (.error f) = .next (s.setRun (.halted f)) := rfl
@[simp] theorem takeFault_eq : takeFault s f = .next (s.setRun (.halted f)) := rfl

/-- An instruction ends in its result or in its fault, never in a stop of the model. -/
theorem commit_cases (s : State) (r : Except Fault State) :
    (∃ t, r = .ok t ∧ commit s r = .next t) ∨ (∃ f, r = .error f ∧ commit s r = .next (s.setRun (.halted f))) := by
  cases r with
  | ok t => exact .inl ⟨t, rfl, rfl⟩
  | error f => exact .inr ⟨f, rfl, rfl⟩

end Sys2Proof.Machine
end

