-- ==== Sys2Proof/Laws/Exec.lean ====
section
/-! SUPPORT. What each instruction answers, said once: its next state, and for the seven that can raise a fault of their own the state with that fault taken. -/

namespace Sys2Proof.Machine

variable (s : State) (x y : Reg) (nn : Byte) (nnn : Addr12) (n : Count)

/-! ### Instructions that raise no fault -/

theorem exec_cls : exec .cls s = .next (s.setFb blankScreen) := rfl
theorem exec_jp : exec (.jp nnn) s = .next (s.setPc (zextAddr nnn)) := rfl
theorem exec_jpV0 : exec (.jpV0 nnn) s = .next (s.setPc (zextAddr nnn + zextByte s.v[jumpReg s.cfg nnn])) := rfl
theorem exec_seImm : exec (.seImm x nn) s = .next (s.setPc (if s.v[x] = nn then s.pc + 2 else s.pc)) := by
  simp only [exec, execSeImm, commit_ok, State.skipIf_eq, State.getV_eq, beq_iff_eq]
theorem exec_sneImm : exec (.sneImm x nn) s = .next (s.setPc (if s.v[x] = nn then s.pc else s.pc + 2)) := by
  simp only [exec, execSneImm, commit_ok, State.skipIf_eq, State.getV_eq, bne_iff_ne, ne_eq, ite_not]
theorem exec_seReg : exec (.seReg x y) s = .next (s.setPc (if s.v[x] = s.v[y] then s.pc + 2 else s.pc)) := by
  simp only [exec, execSeReg, commit_ok, State.skipIf_eq, State.getV_eq, beq_iff_eq]
theorem exec_sneReg : exec (.sneReg x y) s = .next (s.setPc (if s.v[x] = s.v[y] then s.pc else s.pc + 2)) := by
  simp only [exec, execSneReg, commit_ok, State.skipIf_eq, State.getV_eq, bne_iff_ne, ne_eq, ite_not]
theorem exec_ldImm : exec (.ldImm x nn) s = .next (s.setV x nn) := rfl
theorem exec_addImm : exec (.addImm x nn) s = .next (s.setV x (s.v[x] + nn)) := rfl
theorem exec_ldReg : exec (.ldReg x y) s = .next (s.setV x s.v[y]) := rfl
theorem exec_orReg : exec (.orReg x y) s = .next (writeLogic s x (s.v[x] ||| s.v[y])) := rfl
theorem exec_andReg : exec (.andReg x y) s = .next (writeLogic s x (s.v[x] &&& s.v[y])) := rfl
theorem exec_xorReg : exec (.xorReg x y) s = .next (writeLogic s x (s.v[x] ^^^ s.v[y])) := rfl
theorem exec_addReg : exec (.addReg x y) s = .next (writeXF s x (s.v[x] + s.v[y]) (carryOut s.v[x] s.v[y])) := rfl
theorem exec_subReg : exec (.subReg x y) s = .next (writeXF s x (s.v[x] - s.v[y]) (noBorrow s.v[x] s.v[y])) := rfl
theorem exec_subn : exec (.subn x y) s = .next (writeXF s x (s.v[y] - s.v[x]) (noBorrow s.v[y] s.v[x])) := rfl
theorem exec_shr : exec (.shr x y) s = .next (writeXF s x (shiftSource s x y >>> 1) (shrOut (shiftSource s x y))) := rfl
theorem exec_shl : exec (.shl x y) s = .next (writeXF s x (shiftSource s x y <<< 1) (shlOut (shiftSource s x y))) := rfl
theorem exec_rnd : exec (.rnd x nn) s = .next ((s.setV x (Config.freeByte s.draws &&& nn)).drawn 1) := rfl
theorem exec_ldI : exec (.ldI nnn) s = .next (s.setI (zextAddr nnn)) := rfl
theorem exec_addI : exec (.addI x) s = .next (s.setI (s.i + zextByte s.v[x])) := rfl
theorem exec_ldF : exec (.ldF x) s = .next (s.setI (glyphAddr s.cfg (lowNibble s.v[x]))) := rfl
theorem exec_ldVxDt : exec (.ldVxDt x) s = .next (s.setV x s.dt) := rfl
theorem exec_ldDtVx : exec (.ldDtVx x) s = .next { s with dt := s.v[x] } := rfl
theorem exec_ldStVx : exec (.ldStVx x) s = .next { s with st := s.v[x] } := rfl
theorem exec_skp : exec (.skp x) s = .next (s.setPc (if s.key[lowNibble s.v[x]] = true then s.pc + 2 else s.pc)) := by
  simp only [exec, execSkp, commit_ok, State.skipIf_eq, State.getV_eq, isPressed]
theorem exec_sknp : exec (.sknp x) s = .next (s.setPc (if s.key[lowNibble s.v[x]] = false then s.pc + 2 else s.pc)) := by
  simp only [exec, execSknp, commit_ok, State.skipIf_eq, State.getV_eq, isPressed, Bool.not_eq_true']
theorem exec_ldVxK : exec (.ldVxK x) s = .next { s with latch := none, run := .waitingForKey x } := rfl

/-! ### Instructions that can raise a fault -/

variable {s x y n}

theorem exec_sys_nop (h : s.cfg.sysPolicy = .nop) : exec (.sys nnn) s = .next s := by simp only [exec, execSys, h, commit_ok]
theorem exec_sys_fault (h : s.cfg.sysPolicy = .fault) :
    exec (.sys nnn) s = .next (s.setRun (.halted (.invalidOpcode (zextAddr nnn)))) := by simp only [exec, execSys, h, commit_error]

theorem exec_ret_ok {a : Word} {rest : List Word} (h : s.stack = a :: rest) :
    exec .ret s = .next { s with pc := a, stack := rest } := by simp only [exec, execRet, pop, h]; rfl
theorem exec_ret_fault (h : s.stack = []) : exec .ret s = .next (s.setRun (.halted .stackUnderflow)) := by
  simp only [exec, execRet, pop, h, commit_error]

theorem exec_call_ok (h : s.depth < stackDepth) :
    exec (.call nnn) s = .next { s with pc := zextAddr nnn, stack := s.pc :: s.stack } := by
  simp only [exec, execCall, push, if_neg (Nat.not_le.2 h)]; rfl
theorem exec_call_fault (h : stackDepth ≤ s.depth) : exec (.call nnn) s = .next (s.setRun (.halted .stackOverflow)) := by
  simp only [exec, execCall, push, if_pos h, commit_error]

theorem length_decimalDigits (b : Byte) : (decimalDigits b).length = 3 := rfl

theorem length_regsUpTo : (regsUpTo s x).length = x.val + 1 := by
  simp only [regsUpTo, List.length_take, Vector.length_toList]; omega

theorem exec_ldB_ok (h : s.i.toNat + 3 ≤ memSize) :
    exec (.ldB x) s = .next (s.setMem (s.mem.writeList s.cfg.fontBase s.i.toNat (decimalDigits s.v[x]))) := by
  simp only [exec, execLdB, State.getV_eq]
  rw [writeBytes_ok (.inl (by rw [length_decimalDigits]; exact h)), commit_ok]
theorem exec_ldB_fault (h : memSize < s.i.toNat + 3) :
    exec (.ldB x) s = .next (s.setRun (.halted (.addressFault (max s.i.toNat memSize)))) := by
  simp only [exec, execLdB]
  rw [writeBytes_error (by rw [length_decimalDigits]; exact h) (by simp [decimalDigits]), commit_error]

theorem exec_storeRegs_ok (h : s.i.toNat + (x.val + 1) ≤ memSize) :
    exec (.storeRegs x) s =
      .next (indexAdvance x (s.setMem (s.mem.writeList s.cfg.fontBase s.i.toNat (regsUpTo s x)))) := by
  simp only [exec, execStoreRegs]
  rw [writeBytes_ok (.inl (by rw [length_regsUpTo]; exact h)), commit_ok]
theorem exec_storeRegs_fault (h : memSize < s.i.toNat + (x.val + 1)) :
    exec (.storeRegs x) s = .next (s.setRun (.halted (.addressFault (max s.i.toNat memSize)))) := by
  have hl := length_regsUpTo (s := s) (x := x)
  simp only [exec, execStoreRegs]
  rw [writeBytes_error (by rw [hl]; exact h) (fun h0 => by rw [h0] at hl; cases hl), commit_error]

theorem exec_loadRegs_ok (h : s.i.toNat + (x.val + 1) ≤ memSize) :
    exec (.loadRegs x) s =
      .next (indexAdvance x { s with v := loadInto s.v ((List.range' s.i.toNat (x.val + 1)).map s.byteAt) }) := by
  simp only [exec, execLoadRegs]
  rw [readBytes_ok (.inl h), commit_ok]
theorem exec_loadRegs_fault (h : memSize < s.i.toNat + (x.val + 1)) :
    exec (.loadRegs x) s = .next (s.setRun (.halted (.addressFault (max s.i.toNat memSize)))) := by
  simp only [exec, execLoadRegs]
  rw [readBytes_error h (by omega), commit_error]

theorem exec_drw_ok (h : s.i.toNat + n.val ≤ memSize ∨ n.val = 0) :
    exec (.drw x y n) s =
      .next ((s.setFb (drawSprite (s.v[x].toNat % 64) (s.v[y].toNat % 32) ((List.range' s.i.toNat n.val).map s.byteAt) s.fb).1).setV Reg.vf
        (flagByte (drawSprite (s.v[x].toNat % 64) (s.v[y].toNat % 32) ((List.range' s.i.toNat n.val).map s.byteAt) s.fb).2)) := by
  simp only [exec, execDrw, State.getV_eq]
  rw [readBytes_ok h, commit_ok]
theorem exec_drw_fault (h : memSize < s.i.toNat + n.val) (hn : n.val ≠ 0) :
    exec (.drw x y n) s = .next (s.setRun (.halted (.addressFault (max s.i.toNat memSize)))) := by
  simp only [exec, execDrw]
  rw [readBytes_error h hn, commit_error]

end Sys2Proof.Machine
end

