-- ==== Sys2Proof/Laws/Step.lean ====
section
/-! SUPPORT. What a cycle can do, said once: its cases by the run state and by the fetched word (R130 to R137). -/

namespace Sys2Proof.Machine

variable {s : State} {f : Fault} {x : Reg}

theorem cycle_halted (h : s.run = .halted f) : cycle s = .next s := by simp only [cycle, h]

theorem cycle_waiting (h : s.run = .waitingForKey x) : cycle s = .next (keyWaitComplete x s) := by simp only [cycle, h]

theorem cycle_running (h : s.run = .running) : cycle s = runCycle s := by simp only [cycle, h]

/-- The fetch is out of range: the fault, and nothing else (R133). -/
theorem runCycle_fetchFault (h : memSize ≤ s.pc.toNat + 1) :
    runCycle s = .next (s.setRun (.halted (.addressFault (max s.pc.toNat memSize)))) := by
  rw [runCycle, fetch16_error h]; rfl

/-- The fetch is in range: the word at pc runs in the advanced state (R134 to R136). -/
theorem runCycle_fetched (h : s.pc.toNat + 1 < memSize) :
    runCycle s = runWord (wordOfBytes (s.byteAt s.pc.toNat) (s.byteAt (s.pc.toNat + 1))) s.advance := by
  rw [runCycle, fetch16_ok h]

theorem runWord_ok {w : Word} {i : Instr} (h : decodeWord w = .ok i) : runWord w s = exec i s := by simp only [runWord, h]

theorem runWord_error {w : Word} {e : DecodeError} (h : decodeWord w = .error e) :
    runWord w s = .next (s.setRun (.halted (.invalidOpcode w))) := by simp only [runWord, h]; rfl

theorem step_noInput (h : s.inputs = []) : step s = cycle s := by simp only [step, nextEvent, h]

theorem step_input {ev : HostEvent} {rest : List HostEvent} (h : s.inputs = ev :: rest) :
    step s = hostEvent ev { s with inputs := rest } := by simp only [step, nextEvent, h]

end Sys2Proof.Machine
end

