-- ==== Sys2Proof/Laws/Events.lean ====
section
/-! SUPPORT. What the ports, the key wait and the Clock's schedule can do, said once (R253, R282 to R289). -/

namespace Sys2Proof.Machine

variable {s t : State} {f : Fault} {x : Reg}

/-! ### Instructions -/

/-- Every instruction ends in `commit` of a result: one next state, or its fault taken with its writes discarded (R137, R138). -/
theorem exec_commit (i : Instr) (s : State) : ∃ r, exec i s = commit s r := by
  cases i
  case sys nnn => simp only [exec, execSys]; cases s.cfg.sysPolicy <;> exact ⟨_, rfl⟩
  all_goals
    simp only [exec, execCls, execRet, execJp, execCall, execSeImm, execSneImm, execSeReg, execLdImm, execAddImm, execLdReg, execOrReg,
      execAndReg, execXorReg, execAddReg, execSubReg, execShr, execSubn, execShl, execSneReg, execLdI, execJpV0, execRnd, execDrw, execSkp,
      execSknp, execLdVxDt, execLdVxK, execLdDtVx, execLdStVx, execAddI, execLdF, execLdB, execStoreRegs, execLoadRegs]
    exact ⟨_, rfl⟩

/-! ### What a cycle returns -/

theorem returned_ok_iff : returned t = .ok () ↔ ∀ f, t.run ≠ .halted f := by
  unfold returned; split <;> simp_all

theorem returned_halted (h : t.run = .halted f) : returned t = .error f := by simp [returned, h]

/-! ### The key wait (R253) -/

theorem heldKeys_eq_nil : heldKeys s = [] ↔ ∀ k : Key, s.key[k] = false := by
  simp [heldKeys, List.filter_eq_nil_iff, isPressed]

theorem mem_heldKeys {k : Key} : k ∈ heldKeys s ↔ s.key[k] = true := by
  simp [heldKeys, isPressed]

theorem pickKey_eq_none {c : Nat} {l : List Key} : pickKey c l = none ↔ l = [] := by
  unfold pickKey
  rw [List.getElem?_eq_none_iff]
  refine ⟨fun h => ?_, fun h => by simp [h]⟩
  by_contra hn
  have := Nat.mod_lt c (List.length_pos_of_ne_nil hn); omega

theorem pickKey_mem {c : Nat} {l : List Key} {k : Key} (h : pickKey c l = some k) : k ∈ l := List.mem_of_getElem? h

/-- A wait that no key ends changes nothing; one that a key ends stores that key's number. -/
theorem keyWaitComplete_cases (x : Reg) (s : State) :
    keyWaitComplete x s = s ∨
      ∃ (k : Key) (d : Nat), keyWaitComplete x s = { s with v := s.v.set x (BitVec.ofNat 8 k.val), latch := none, run := .running, draws := s.draws + d } := by
  unfold keyWaitComplete
  split
  · split
    · exact .inr ⟨_, 0, rfl⟩
    · exact .inl rfl
  · split
    · exact .inr ⟨_, 1, rfl⟩
    · exact .inl rfl

/-- No key ends a wait under EDGE with none latched, or under LEVEL with none held. -/
theorem keyWaitComplete_idle (x : Reg)
    (h : (s.cfg.keyWait = .edge ∧ s.latch = none) ∨ (s.cfg.keyWait = .level ∧ ∀ k : Key, s.key[k] = false)) : keyWaitComplete x s = s := by
  rcases h with ⟨hk, hl⟩ | ⟨hk, hn⟩
  · simp only [keyWaitComplete, hk, hl]
  · simp only [keyWaitComplete, hk, pickKey_eq_none.2 (heldKeys_eq_nil.2 hn)]

/-! ### Timers (R282) -/

theorem toNat_countDown (b : Byte) : (countDown b).toNat = b.toNat - 1 := by
  unfold countDown; split
  · subst b; rfl
  · rename_i h
    have : b.toNat ≠ 0 := fun h0 => h (BitVec.eq_of_toNat_eq h0)
    have := b.isLt
    rw [BitVec.toNat_sub]; simp; omega

/-! ### The Clock (R284, R285) -/

/-- A count of events is the exact floor. -/
theorem eventsBy_eq_floor (t : Time) (r : Rate) : ((eventsBy t r : Nat) : Int) = (t.secs * r.hz).floor := by
  have h0 : (0 : Int) ≤ (t.secs * r.hz).floor := by
    rw [← Rat.floor_intCast 0]; exact Rat.floor_monotone (mul_nonneg t.nonneg r.pos.le)
  unfold eventsBy; omega

/-- More time, no fewer events: the natural subtractions of `cyclesDue` and `ticksDue` lose nothing (log 18). -/
theorem eventsBy_mono (t e : Time) (r : Rate) : eventsBy t r ≤ eventsBy (t.add e) r := by
  have h1 := eventsBy_eq_floor t r
  have h2 := eventsBy_eq_floor (t.add e) r
  have : (t.secs * r.hz).floor ≤ ((t.add e).secs * r.hz).floor :=
    Rat.floor_monotone (mul_le_mul_of_nonneg_right (by simp [Time.add, e.nonneg]) r.pos.le)
  omega

theorem interleave_length (first : Nat → Nat → Bool) {fuel nc nt : Nat} (i j : Nat) (h : fuel = nc + nt) :
    (interleave first fuel nc nt i j).length = fuel := by
  induction fuel generalizing nc nt i j with
  | zero => rfl
  | succ k ih =>
    rcases nc with _ | nc <;> rcases nt with _ | nt
    · omega
    · simp [interleave, ih (nc := 0) (nt := nt) i (j + 1) (by omega)]
    · simp [interleave, ih (nc := nc) (nt := 0) (i + 1) j (by omega)]
    · simp only [interleave]; split
      · simp [ih (nc := nc) (nt := nt + 1) (i + 1) j (by omega)]
      · simp [ih (nc := nc + 1) (nt := nt) i (j + 1) (by omega)]

/-- A timer tick in an order of clock events. -/
theorem runClock_timerTick (l : List ClockEvent) (s : State) : runClock (.timerTick :: l) s = runClock l (timerTick s) := rfl

/-- A cycle in an order of clock events. -/
theorem runClock_cycle (l : List ClockEvent) (h : cycle s = .next t) : runClock (.cycle :: l) s = runClock l t := by
  rw [runClock, h]

/-- While cycles change nothing, whatever the timers hold, an order of clock events is its timer ticks. -/
theorem runClock_idle (l : List ClockEvent) (h : ∀ a b, cycle { s with dt := a, st := b } = .next { s with dt := a, st := b }) :
    runClock l s = .next { s with dt := (timerTick^[l.count .timerTick] s).dt, st := (timerTick^[l.count .timerTick] s).st } := by
  induction l generalizing s with
  | nil => rfl
  | cons e l ih =>
    cases e with
    | cycle => rw [runClock_cycle l (h s.dt s.st), ih h]; rfl
    | timerTick => rw [runClock_timerTick, ih (s := timerTick s) h]; simp [timerTick]

/-- While the CPU is halted, an order of clock events is its timer ticks. -/
theorem runClock_halted (h : s.run = .halted f) (l : List ClockEvent) :
    runClock l s = .next { s with dt := (timerTick^[l.count .timerTick] s).dt, st := (timerTick^[l.count .timerTick] s).st } :=
  runClock_idle l fun _ _ => cycle_halted h

/-- While the CPU waits and no key can end the wait, an order of clock events is its timer ticks. -/
theorem runClock_waiting (hr : s.run = .waitingForKey x)
    (h : (s.cfg.keyWait = .edge ∧ s.latch = none) ∨ (s.cfg.keyWait = .level ∧ ∀ k : Key, s.key[k] = false)) (l : List ClockEvent) :
    runClock l s = .next { s with dt := (timerTick^[l.count .timerTick] s).dt, st := (timerTick^[l.count .timerTick] s).st } :=
  runClock_idle l fun a b => (cycle_waiting (s := { s with dt := a, st := b }) hr).trans (by rw [keyWaitComplete_idle x (by exact h)])

end Sys2Proof.Machine
end

