-- ==== Sys2Proof/Laws/Operands.lean ====
section
/-! SUPPORT. The operand forms as numbers and as registers: what each reads, said once (R101, R202 to R206). -/

namespace Sys2Proof.Machine

theorem toNat_zextAddr (nnn : Addr12) : (zextAddr nnn).toNat = nnn.toNat := by
  simp [zextAddr]; omega

theorem toNat_zextByte (b : Byte) : (zextByte b).toNat = b.toNat := by
  simp [zextByte]; omega

/-- The low nibble is the remainder modulo 16 (R254). -/
theorem lowNibble_val (b : Byte) : (lowNibble b).val = b.toNat % 16 := by
  show (BitVec.extractLsb' 0 4 b).toNat = _
  simp [BitVec.extractLsb'_toNat]

/-- A glyph's address does not wrap: FONT_BASE is at most 432 (R9). -/
theorem toNat_glyphAddr (cfg : Config) (d : Key) : (glyphAddr cfg d).toNat = cfg.fontBase.val + 5 * d.val := by
  simp only [glyphAddr, BitVec.toNat_ofNat]; have := cfg.fontBase.isLt; omega

/-- The value stored at `I + r` is that of register r (R204). -/
theorem regsUpTo_getD (s : State) {x r : Reg} (h : r ≤ x) : (regsUpTo s x).getD r.val 0 = s.v[r] := by
  have h' : r.val < x.val + 1 := by have : r.val ≤ x.val := h; omega
  simp [regsUpTo, List.getD_eq_getElem?_getD, h']

/-- Register r holds the r-th loaded byte, and a register past the last one what it held (R205). -/
theorem getElem_loadInto (v : Vector Byte 16) (f : Nat → Byte) (a n : Nat) (r : Reg) :
    (loadInto v ((List.range' a n).map f))[r] = if r.val < n then f (a + r.val) else v[r] := by
  simp only [loadInto, Fin.getElem_fin, Vector.getElem_ofFn, List.getD_eq_getElem?_getD, List.getElem?_map]
  split <;> simp_all

end Sys2Proof.Machine
end

