-- ==== Sys2Proof/Laws/PerInstr.lean ====
section
/-! SUPPORT. For every constructor of Instr: its encoder agrees with the fixed bits of its row of the opcode table (R102, R103). -/

namespace Sys2Proof.Laws

/-! ### Masks on the three word patterns -/

theorem formNNN_mask (o : BitVec 4) (a : Addr12) : formNNN o a &&& 0xF000#16 = o ++ 0#12 := by
  rw [show 0xF000#16 = 0xF#4 ++ 0#12 from rfl, formNNN, BitVec.and_append, BitVec.and_zero, show 0xF#4 = BitVec.allOnes 4 from rfl, BitVec.and_allOnes]

theorem formXNN_maskOp (o : BitVec 4) (x : Reg) (b : Byte) : formXNN o x b &&& 0xF000#16 = o ++ 0#12 :=
  formNNN_mask o (BitVec.ofFin (w := 4) x ++ b)

theorem formXYN_maskOp (o : BitVec 4) (x y : Reg) (n : BitVec 4) : formXYN o x y n &&& 0xF000#16 = o ++ 0#12 :=
  formNNN_mask o (BitVec.ofFin (w := 4) x ++ (BitVec.ofFin (w := 4) y ++ n))

theorem formXNN_mask (o : BitVec 4) (x : Reg) (b : Byte) : formXNN o x b &&& 0xF0FF#16 = o ++ (0#4 ++ b) := by
  rw [show 0xF0FF#16 = BitVec.allOnes 4 ++ (0#4 ++ BitVec.allOnes 8) from rfl, formXNN, BitVec.and_append, BitVec.and_append, BitVec.and_zero,
    BitVec.and_allOnes, BitVec.and_allOnes]

theorem formXYN_mask (o : BitVec 4) (x y : Reg) (n : BitVec 4) : formXYN o x y n &&& 0xF00F#16 = o ++ (0#4 ++ (0#4 ++ n)) := by
  rw [show 0xF00F#16 = BitVec.allOnes 4 ++ (0#4 ++ (0#4 ++ BitVec.allOnes 4)) from rfl, formXYN, BitVec.and_append, BitVec.and_append,
    BitVec.and_append, BitVec.and_zero, BitVec.and_zero, BitVec.and_allOnes, BitVec.and_allOnes]

/-! ### The opcode table's `mask` and `match` of each row -/

/-- `mask`: the bits that a row fixes. -/
def EncodingForm.mask : Instr → Word
  | .sys _ => 0xF000#16
  | .cls => 0xFFFF#16
  | .ret => 0xFFFF#16
  | .jp _ => 0xF000#16
  | .call _ => 0xF000#16
  | .seImm _ _ => 0xF000#16
  | .sneImm _ _ => 0xF000#16
  | .seReg _ _ => 0xF00F#16
  | .ldImm _ _ => 0xF000#16
  | .addImm _ _ => 0xF000#16
  | .ldReg _ _ => 0xF00F#16
  | .orReg _ _ => 0xF00F#16
  | .andReg _ _ => 0xF00F#16
  | .xorReg _ _ => 0xF00F#16
  | .addReg _ _ => 0xF00F#16
  | .subReg _ _ => 0xF00F#16
  | .shr _ _ => 0xF00F#16
  | .subn _ _ => 0xF00F#16
  | .shl _ _ => 0xF00F#16
  | .sneReg _ _ => 0xF00F#16
  | .ldI _ => 0xF000#16
  | .jpV0 _ => 0xF000#16
  | .rnd _ _ => 0xF000#16
  | .drw _ _ _ => 0xF000#16
  | .skp _ => 0xF0FF#16
  | .sknp _ => 0xF0FF#16
  | .ldVxDt _ => 0xF0FF#16
  | .ldVxK _ => 0xF0FF#16
  | .ldDtVx _ => 0xF0FF#16
  | .ldStVx _ => 0xF0FF#16
  | .addI _ => 0xF0FF#16
  | .ldF _ => 0xF0FF#16
  | .ldB _ => 0xF0FF#16
  | .storeRegs _ => 0xF0FF#16
  | .loadRegs _ => 0xF0FF#16

/-- `match`: the values of the bits that a row fixes. -/
def EncodingForm.value : Instr → Word
  | .sys _ => 0x0000#16
  | .cls => 0x00E0#16
  | .ret => 0x00EE#16
  | .jp _ => 0x1000#16
  | .call _ => 0x2000#16
  | .seImm _ _ => 0x3000#16
  | .sneImm _ _ => 0x4000#16
  | .seReg _ _ => 0x5000#16
  | .ldImm _ _ => 0x6000#16
  | .addImm _ _ => 0x7000#16
  | .ldReg _ _ => 0x8000#16
  | .orReg _ _ => 0x8001#16
  | .andReg _ _ => 0x8002#16
  | .xorReg _ _ => 0x8003#16
  | .addReg _ _ => 0x8004#16
  | .subReg _ _ => 0x8005#16
  | .shr _ _ => 0x8006#16
  | .subn _ _ => 0x8007#16
  | .shl _ _ => 0x800E#16
  | .sneReg _ _ => 0x9000#16
  | .ldI _ => 0xA000#16
  | .jpV0 _ => 0xB000#16
  | .rnd _ _ => 0xC000#16
  | .drw _ _ _ => 0xD000#16
  | .skp _ => 0xE09E#16
  | .sknp _ => 0xE0A1#16
  | .ldVxDt _ => 0xF007#16
  | .ldVxK _ => 0xF00A#16
  | .ldDtVx _ => 0xF015#16
  | .ldStVx _ => 0xF018#16
  | .addI _ => 0xF01E#16
  | .ldF _ => 0xF029#16
  | .ldB _ => 0xF033#16
  | .storeRegs _ => 0xF055#16
  | .loadRegs _ => 0xF065#16

/-- The fixed bits of the instruction's word are those of its row. -/
def EncodingForm.Statement (i : Instr) : Prop :=
  encode i &&& EncodingForm.mask i = EncodingForm.value i

theorem EncodingForm.sys (nnn : Addr12) : EncodingForm.Statement (.sys nnn) := formNNN_mask _ _
theorem EncodingForm.cls : EncodingForm.Statement (.cls) := rfl
theorem EncodingForm.ret : EncodingForm.Statement (.ret) := rfl
theorem EncodingForm.jp (nnn : Addr12) : EncodingForm.Statement (.jp nnn) := formNNN_mask _ _
theorem EncodingForm.call (nnn : Addr12) : EncodingForm.Statement (.call nnn) := formNNN_mask _ _
theorem EncodingForm.seImm (x : Reg) (nn : Byte) : EncodingForm.Statement (.seImm x nn) := formXNN_maskOp _ _ _
theorem EncodingForm.sneImm (x : Reg) (nn : Byte) : EncodingForm.Statement (.sneImm x nn) := formXNN_maskOp _ _ _
theorem EncodingForm.seReg (x : Reg) (y : Reg) : EncodingForm.Statement (.seReg x y) := formXYN_mask _ _ _ _
theorem EncodingForm.ldImm (x : Reg) (nn : Byte) : EncodingForm.Statement (.ldImm x nn) := formXNN_maskOp _ _ _
theorem EncodingForm.addImm (x : Reg) (nn : Byte) : EncodingForm.Statement (.addImm x nn) := formXNN_maskOp _ _ _
theorem EncodingForm.ldReg (x : Reg) (y : Reg) : EncodingForm.Statement (.ldReg x y) := formXYN_mask _ _ _ _
theorem EncodingForm.orReg (x : Reg) (y : Reg) : EncodingForm.Statement (.orReg x y) := formXYN_mask _ _ _ _
theorem EncodingForm.andReg (x : Reg) (y : Reg) : EncodingForm.Statement (.andReg x y) := formXYN_mask _ _ _ _
theorem EncodingForm.xorReg (x : Reg) (y : Reg) : EncodingForm.Statement (.xorReg x y) := formXYN_mask _ _ _ _
theorem EncodingForm.addReg (x : Reg) (y : Reg) : EncodingForm.Statement (.addReg x y) := formXYN_mask _ _ _ _
theorem EncodingForm.subReg (x : Reg) (y : Reg) : EncodingForm.Statement (.subReg x y) := formXYN_mask _ _ _ _
theorem EncodingForm.shr (x : Reg) (y : Reg) : EncodingForm.Statement (.shr x y) := formXYN_mask _ _ _ _
theorem EncodingForm.subn (x : Reg) (y : Reg) : EncodingForm.Statement (.subn x y) := formXYN_mask _ _ _ _
theorem EncodingForm.shl (x : Reg) (y : Reg) : EncodingForm.Statement (.shl x y) := formXYN_mask _ _ _ _
theorem EncodingForm.sneReg (x : Reg) (y : Reg) : EncodingForm.Statement (.sneReg x y) := formXYN_mask _ _ _ _
theorem EncodingForm.ldI (nnn : Addr12) : EncodingForm.Statement (.ldI nnn) := formNNN_mask _ _
theorem EncodingForm.jpV0 (nnn : Addr12) : EncodingForm.Statement (.jpV0 nnn) := formNNN_mask _ _
theorem EncodingForm.rnd (x : Reg) (nn : Byte) : EncodingForm.Statement (.rnd x nn) := formXNN_maskOp _ _ _
theorem EncodingForm.drw (x : Reg) (y : Reg) (n : Count) : EncodingForm.Statement (.drw x y n) := formXYN_maskOp _ _ _ _
theorem EncodingForm.skp (x : Reg) : EncodingForm.Statement (.skp x) := formXNN_mask _ _ _
theorem EncodingForm.sknp (x : Reg) : EncodingForm.Statement (.sknp x) := formXNN_mask _ _ _
theorem EncodingForm.ldVxDt (x : Reg) : EncodingForm.Statement (.ldVxDt x) := formXNN_mask _ _ _
theorem EncodingForm.ldVxK (x : Reg) : EncodingForm.Statement (.ldVxK x) := formXNN_mask _ _ _
theorem EncodingForm.ldDtVx (x : Reg) : EncodingForm.Statement (.ldDtVx x) := formXNN_mask _ _ _
theorem EncodingForm.ldStVx (x : Reg) : EncodingForm.Statement (.ldStVx x) := formXNN_mask _ _ _
theorem EncodingForm.addI (x : Reg) : EncodingForm.Statement (.addI x) := formXNN_mask _ _ _
theorem EncodingForm.ldF (x : Reg) : EncodingForm.Statement (.ldF x) := formXNN_mask _ _ _
theorem EncodingForm.ldB (x : Reg) : EncodingForm.Statement (.ldB x) := formXNN_mask _ _ _
theorem EncodingForm.storeRegs (x : Reg) : EncodingForm.Statement (.storeRegs x) := formXNN_mask _ _ _
theorem EncodingForm.loadRegs (x : Reg) : EncodingForm.Statement (.loadRegs x) := formXNN_mask _ _ _

end Sys2Proof.Laws
end

