-- ==== Sys2Proof/Tests/Slice0.lean ====
section
/-! SUPPORT. The model's own tests. Words are written out from the encodings of spec/opcode_table.json; the expected results are those of the vectors of
spec/95_test_vectors.md that the names cite (E1 to E9, F1.1 to F7.14), and, where a test cites a rule instead, a hand calculation from that rule. After them, for every
statement with hypotheses, a theorem that shows states and operands that meet them. -/

open Sys2Proof Sys2Proof.Machine Sys2Proof.Claims

section

/- One proof at a time: checked side by side, these evaluations ask for more threads than the check allows. -/
set_option Elab.async false

/-! ### Helpers: states with bytes, a word and registers set -/

namespace Sys2Proof.Machine

/-- `s` with bytes at an address. -/
def State.bytes (s : State) (a : Nat) (bs : List Byte) : State := s.setMem (s.mem.writeList s.cfg.fontBase a bs)

/-- `s` with a word at pc. -/
def State.word (s : State) (w : Word) : State := s.bytes s.pc.toNat [w.hiByte, w.loByte]

/-- `s` with registers set. -/
def State.regs (s : State) : List (Reg × Byte) → State
  | [] => s
  | (r, b) :: rest => State.regs (s.setV r b) rest

end Sys2Proof.Machine

namespace Sys2Proof.Tests

/-! ### Configurations, steps and screens -/

/-- The baseline configuration of spec/95_test_vectors.md section 0, at 700 cycles a second. -/
def baseline : Config where
  shiftSrc := .vy
  lsIndex := .keep
  vfOrder := .flagLast
  logicVf := .keep
  jumpReg := .v0
  sysPolicy := .fault
  keyWait := .edge
  fontBase := 0x050
  cycleRate := ⟨700, by norm_num⟩

/-- The state after construction with the baseline configuration. -/
def fresh : State := State.construct baseline

/-- The next state of a step has a property. -/
def stepsTo (s : State) (p : State → Bool) : Bool :=
  match step s with
  | .next t => p t
  | _ => false

/-- The lit pixels, as the spec lists them: (x, y), by rising row and column. -/
def lit (fb : Framebuffer) : List (Nat × Nat) :=
  (List.range 32).flatMap fun y => (List.range 64).filterMap fun x => if pixel fb (Fin.ofNat 64 x) (Fin.ofNat 32 y) then some (x, y) else none

/-- A screen with one row's bits and nothing else lit. -/
def oneRow (y : Fin 32) (row : Vector Bool 64) : Framebuffer := blankScreen.set y row

/-- An all-lit screen (E5, F6.1). -/
def allLit : Framebuffer := Vector.replicate 32 (Vector.replicate 64 true)

/-! ### WellFormed refuses the two excluded words of the SYS row, and no others -/

theorem test_wellFormed_sys_00E0 : Instr.wellFormed (.sys 0x0E0) = false := by decide
theorem test_wellFormed_sys_00EE : Instr.wellFormed (.sys 0x0EE) = false := by decide
theorem test_wellFormed_sys_others : [Instr.sys 0, .sys 0x0E1, .sys 0x0EF, .sys 0xFFF].all Instr.wellFormed = true := by decide

/-! ### Decoding: each row's word, written out bit by bit from the table's `encoding` -/

theorem test_decode_family0 : decodeWord 0b0000000100100011 = .ok (.sys 0x123) ∧ decodeWord 0b0000000011100000 = .ok .cls ∧
    decodeWord 0b0000000011101110 = .ok .ret := by decide
theorem test_decode_jumps : decodeWord 0b0001101010111100 = .ok (.jp 0xABC) ∧ decodeWord 0b0010101010111100 = .ok (.call 0xABC) ∧
    decodeWord 0b1011101010111100 = .ok (.jpV0 0xABC) ∧ decodeWord 0b1010101010111100 = .ok (.ldI 0xABC) := by decide
theorem test_decode_skips : decodeWord 0b0011000101000010 = .ok (.seImm 1 0x42) ∧ decodeWord 0b0100000101000010 = .ok (.sneImm 1 0x42) ∧
    decodeWord 0b0101000100100000 = .ok (.seReg 1 2) ∧ decodeWord 0b1001000100100000 = .ok (.sneReg 1 2) ∧
    decodeWord 0b1110000110011110 = .ok (.skp 1) ∧ decodeWord 0b1110000110100001 = .ok (.sknp 1) := by decide
theorem test_decode_loads : decodeWord 0b0110101000001111 = .ok (.ldImm 10 0x0F) ∧ decodeWord 0b0111101000001111 = .ok (.addImm 10 0x0F) ∧
    decodeWord 0b1100101000001111 = .ok (.rnd 10 0x0F) := by decide
theorem test_decode_family8 : decodeWord 0b1000101010110000 = .ok (.ldReg 10 11) ∧ decodeWord 0b1000101010110001 = .ok (.orReg 10 11) ∧
    decodeWord 0b1000101010110010 = .ok (.andReg 10 11) ∧ decodeWord 0b1000101010110011 = .ok (.xorReg 10 11) ∧
    decodeWord 0b1000101010110100 = .ok (.addReg 10 11) ∧ decodeWord 0b1000101010110101 = .ok (.subReg 10 11) ∧
    decodeWord 0b1000101010110110 = .ok (.shr 10 11) ∧ decodeWord 0b1000101010110111 = .ok (.subn 10 11) ∧
    decodeWord 0b1000101010111110 = .ok (.shl 10 11) := by decide
theorem test_decode_draw : decodeWord 0b1101000100100101 = .ok (.drw 1 2 5) := by decide
theorem test_decode_familyF_timers : decodeWord 0b1111010100000111 = .ok (.ldVxDt 5) ∧ decodeWord 0b1111010100001010 = .ok (.ldVxK 5) ∧
    decodeWord 0b1111010100010101 = .ok (.ldDtVx 5) ∧ decodeWord 0b1111010100011000 = .ok (.ldStVx 5) := by decide
theorem test_decode_familyF_memory : decodeWord 0b1111010100011110 = .ok (.addI 5) ∧ decodeWord 0b1111010100101001 = .ok (.ldF 5) ∧
    decodeWord 0b1111010100110011 = .ok (.ldB 5) ∧ decodeWord 0b1111010101010101 = .ok (.storeRegs 5) ∧
    decodeWord 0b1111010101100101 = .ok (.loadRegs 5) := by decide
/-- F2.4 to F2.9: illegal words of every family that has some. -/
theorem test_decode_illegal : [0x5121, 0x9121, 0x8128, 0x812F, 0xE100, 0xF100].all
    (fun w : Word => decodeWord w == .error (.invalid w)) = true := by decide
/-- R73: the first byte is the high one; a decoder asked for bytes leaves the rest, and refuses one byte. -/
theorem test_decodeBytes : decodeBytes [0x6A, 0x0F, 0x99] = .ok (.ldImm 10 0x0F, [0x99]) ∧ decodeBytes [0x6A] = .error (.tooShort 1) := by decide
theorem test_decodeTableWord : decodeTableWord 16 0x8AB4 = some (.addReg 10 11) ∧ decodeTableWord 16 0xFFFF = none := by decide
theorem test_withFetchWord : stepsTo (State.reset.withFetchWord 16 0x6A0F) (fun t => t.v[10] == 0x0F && t.pc == 0x202) = true := by decide +kernel
/-- R109's examples of assembler text. -/
theorem test_asmText : asmText (.ldImm 10 0x0F) = "LD VA, 0x0F" ∧ asmText (.addReg 10 11) = "ADD VA, VB" := by decide

/-! ### Control flow (F1) -/

theorem test_jp_F1_3 : stepsTo (fresh.word 0x1FFF) (fun t => t.pc == 0xFFF && t.run == .running) = true := by decide +kernel
theorem test_jp_F1_1 : stepsTo (fresh.word 0x1300) (fun t => t.pc == 0x300) = true := by decide +kernel
theorem test_call_F1_4 : stepsTo (fresh.word 0x2400) (fun t => t.stack == [0x202] && t.pc == 0x400) = true := by decide +kernel
theorem test_call_F1_7 : stepsTo (State.word { fresh with pc := 0x300, stack := List.replicate 16 0x202 } 0x2400)
    (fun t => t.run == .halted .stackOverflow && t.pc == 0x302 && t.stack == List.replicate 16 0x202) = true := by decide +kernel
theorem test_ret_F1_5 : stepsTo (State.word { fresh with pc := 0x400, stack := [0x202] } 0x00EE) (fun t => t.pc == 0x202 && t.stack == []) = true := by
  decide +kernel
theorem test_ret_F1_6 : stepsTo (fresh.word 0x00EE) (fun t => t.run == .halted .stackUnderflow && t.pc == 0x202) = true := by decide +kernel
theorem test_seImm_F1_9 : stepsTo ((State.regs { fresh with pc := 0x210 } [(3, 0x42)]).word 0x3342) (fun t => t.pc == 0x214) = true := by decide +kernel
theorem test_seImm_F1_10 : stepsTo ((State.regs { fresh with pc := 0x210 } [(3, 0x41)]).word 0x3342) (fun t => t.pc == 0x212) = true := by decide +kernel
theorem test_sneImm_F1_11 : stepsTo ((State.regs { fresh with pc := 0x210 } [(3, 0x41)]).word 0x4342) (fun t => t.pc == 0x214) = true := by decide +kernel
theorem test_sneImm_F1_12 : stepsTo ((State.regs { fresh with pc := 0x210 } [(3, 0x42)]).word 0x4342) (fun t => t.pc == 0x212) = true := by decide +kernel
theorem test_seReg_F1_13 : stepsTo ((State.regs { fresh with pc := 0x220 } [(1, 7), (2, 7)]).word 0x5120) (fun t => t.pc == 0x224) = true := by decide +kernel
theorem test_sneReg_F1_15 : stepsTo ((State.regs { fresh with pc := 0x220 } [(1, 7), (2, 8)]).word 0x9120) (fun t => t.pc == 0x224) = true := by decide +kernel
theorem test_sneReg_F1_16 : stepsTo ((State.regs { fresh with pc := 0x220 } [(1, 7)]).word 0x9110) (fun t => t.pc == 0x222) = true := by decide +kernel
theorem test_jpV0_F1_20 : stepsTo ((State.regs { fresh with cfg := { baseline with jumpReg := .vx } } [(0, 0x10), (3, 5)]).word 0xB300)
    (fun t => t.pc == 0x305) = true := by decide +kernel
theorem test_jpV0_F1_21 : stepsTo ((fresh.regs [(0, 0xFF)]).word 0xBFFF) (fun t => t.pc == 0x10FE && t.run == .running) = true := by decide +kernel
theorem test_sys_F1_22 : stepsTo (fresh.word 0x0123) (fun t => t.run == .halted (.invalidOpcode 0x0123) && t.pc == 0x202) = true := by decide +kernel
theorem test_sys_F1_23 : stepsTo (State.word { fresh with cfg := { baseline with sysPolicy := .nop } } 0x0123)
    (fun t => t.run == .running && t.pc == 0x202) = true := by decide +kernel

/-! ### Cycle and decode (F2) -/

theorem test_fetch_F2_1 : stepsTo (({ fresh with pc := 0xFFF } : State).bytes 0xFFF [0x12])
    (fun t => t.run == .halted (.addressFault 0x1000) && t.pc == 0xFFF) = true := by decide +kernel
theorem test_fetch_F2_3 : stepsTo (State.word { fresh with pc := 0x201 } 0x6007) (fun t => t.v[0] == 7 && t.pc == 0x203) = true := by decide +kernel
theorem test_illegal_E8 : stepsTo (fresh.word 0xFFFF) (fun t => t.run == .halted (.invalidOpcode 0xFFFF) && t.pc == 0x202) = true := by decide +kernel

/-! ### ALU (F3) -/

theorem test_ldImm_F3_1 : stepsTo (fresh.word 0x6A0F) (fun t => t.v[10] == 0x0F) = true := by decide +kernel
theorem test_addImm_F3_2 : stepsTo ((fresh.regs [(2, 0xFE), (15, 7)]).word 0x7203) (fun t => t.v[2] == 1 && t.v[15] == 7) = true := by decide +kernel
theorem test_ldReg_F3_4 : stepsTo ((fresh.regs [(1, 0x33)]).word 0x8010) (fun t => t.v[0] == 0x33 && t.v[1] == 0x33) = true := by decide +kernel
theorem test_orReg_F3_5 : stepsTo ((fresh.regs [(0, 0x0C), (1, 0x0A), (15, 9)]).word 0x8011) (fun t => t.v[0] == 0x0E && t.v[15] == 9) = true := by
  decide +kernel
theorem test_orReg_F3_9 : stepsTo ((State.regs { fresh with cfg := { baseline with logicVf := .reset } } [(15, 0x0C), (1, 0x0A)]).word 0x8F11)
      (fun t => t.v[15] == 0) = true ∧
    stepsTo ((State.regs { fresh with cfg := { baseline with logicVf := .reset, vfOrder := .resultLast } } [(15, 0x0C), (1, 0x0A)]).word 0x8F11)
      (fun t => t.v[15] == 0x0E) = true := by decide +kernel
theorem test_andReg_F3_6 : stepsTo ((fresh.regs [(0, 0x0C), (1, 0x0A)]).word 0x8012) (fun t => t.v[0] == 8) = true := by decide +kernel
theorem test_xorReg_F3_7 : stepsTo ((fresh.regs [(0, 0x0C), (1, 0x0A)]).word 0x8013) (fun t => t.v[0] == 6) = true := by decide +kernel
theorem test_addReg_F3_12 : stepsTo ((fresh.regs [(10, 0xFF), (11, 0xFF)]).word 0x8AB4) (fun t => t.v[10] == 0xFE && t.v[15] == 1) = true := by decide +kernel
theorem test_addReg_F3_14 : stepsTo ((fresh.regs [(15, 0xFF), (1, 1)]).word 0x8F14) (fun t => t.v[15] == 1) = true ∧
    stepsTo ((State.regs { fresh with cfg := { baseline with vfOrder := .resultLast } } [(15, 0xFF), (1, 1)]).word 0x8F14) (fun t => t.v[15] == 0) = true := by
  decide +kernel
theorem test_subReg_F3_16 : stepsTo ((fresh.regs [(10, 3), (11, 5)]).word 0x8AB5) (fun t => t.v[10] == 0xFE && t.v[15] == 0) = true := by decide +kernel
theorem test_subReg_F3_17 : stepsTo ((fresh.regs [(10, 5), (11, 5)]).word 0x8AB5) (fun t => t.v[10] == 0 && t.v[15] == 1) = true := by decide +kernel
theorem test_subn_F3_19 : stepsTo ((fresh.regs [(10, 3), (11, 5)]).word 0x8AB7) (fun t => t.v[10] == 2 && t.v[15] == 1) = true := by decide +kernel
theorem test_subn_F3_20 : stepsTo ((fresh.regs [(10, 5), (11, 3)]).word 0x8AB7) (fun t => t.v[10] == 0xFE && t.v[15] == 0) = true := by decide +kernel
theorem test_shr_F3_21 : stepsTo ((fresh.regs [(10, 0), (11, 5)]).word 0x8AB6) (fun t => t.v[10] == 2 && t.v[15] == 1 && t.v[11] == 5) = true ∧
    stepsTo ((State.regs { fresh with cfg := { baseline with shiftSrc := .vx } } [(10, 0), (11, 5)]).word 0x8AB6) (fun t => t.v[10] == 0 && t.v[15] == 0) = true := by
  decide +kernel
theorem test_shl_F3_23 : stepsTo ((fresh.regs [(10, 0x40), (11, 0x81)]).word 0x8ABE) (fun t => t.v[10] == 2 && t.v[15] == 1) = true ∧
    stepsTo ((State.regs { fresh with cfg := { baseline with shiftSrc := .vx } } [(10, 0x40), (11, 0x81)]).word 0x8ABE)
      (fun t => t.v[10] == 0x80 && t.v[15] == 0) = true := by decide +kernel
/-- F3.27, under every draw: 0 is the AND of any byte with 0. The draw is spent (R182). -/
theorem test_rnd_F3_27 (s : State) : exec (.rnd 5 0) s = .next ((s.setV 5 0).drawn 1) := by
  rw [exec_rnd, show Config.freeByte s.draws &&& 0 = 0 from BitVec.and_zero]

/-! ### Index and memory (F4) -/

theorem test_ldI_F4_1 : stepsTo (fresh.word 0xA2F0) (fun t => t.i == 0x2F0) = true := by decide +kernel
theorem test_addI_F4_4 : stepsTo ((State.regs { fresh with i := 0x0FFF } [(4, 1), (15, 9)]).word 0xF41E) (fun t => t.i == 0x1000 && t.v[15] == 9) = true := by
  decide +kernel
theorem test_addI_F4_5 : stepsTo ((State.regs { fresh with i := 0xFFFF } [(4, 1)]).word 0xF41E) (fun t => t.i == 0 && t.run == .running) = true := by
  decide +kernel
theorem test_ldF_F4_7 : stepsTo ((fresh.regs [(2, 0x1A)]).word 0xF229) (fun t => t.i == 0x82) = true := by decide +kernel
theorem test_ldB_F4_9 : stepsTo ((State.regs { fresh with i := 0x300 } [(3, 0xFE)]).word 0xF333)
    (fun t => t.byteAt 0x300 == 2 && t.byteAt 0x301 == 5 && t.byteAt 0x302 == 4 && t.i == 0x300) = true := by decide +kernel
theorem test_ldB_F4_12 : stepsTo ((State.regs { fresh with i := 0xFFE } [(3, 0xFF)]).word 0xF333)
    (fun t => t.run == .halted (.addressFault 0x1000) && t.byteAt 0xFFE == 0 && t.byteAt 0xFFF == 0 && t.pc == 0x202) = true := by decide +kernel
theorem test_storeRegs_F4_13 : stepsTo ((State.regs { fresh with i := 0x400 } [(0, 0x11), (1, 0x22), (2, 0x33), (3, 0x44)]).word 0xF255)
    (fun t => t.byteAt 0x400 == 0x11 && t.byteAt 0x401 == 0x22 && t.byteAt 0x402 == 0x33 && t.byteAt 0x403 == 0 && t.i == 0x400) = true := by decide +kernel
theorem test_storeRegs_F4_21 : stepsTo ((State.regs { fresh with i := 0xFFE, cfg := { baseline with lsIndex := .addXPlus1 } } [(0, 0xAA), (1, 0xBB)]).word 0xF155)
    (fun t => t.byteAt 0xFFE == 0xAA && t.byteAt 0xFFF == 0xBB && t.i == 0x1000) = true := by decide +kernel
theorem test_loadRegs_F4_17 : stepsTo ((State.bytes { fresh with i := 0x400, cfg := { baseline with lsIndex := .addX } } 0x400 [0x11, 0x22, 0x33, 0x44]).word 0xF265)
    (fun t => t.v[0] == 0x11 && t.v[1] == 0x22 && t.v[2] == 0x33 && t.v[3] == 0 && t.i == 0x402) = true := by decide +kernel
theorem test_loadRegs_F4_19 : stepsTo ((State.regs { fresh with i := 0xFFD } [(0, 0x55), (1, 0x55)]).word 0xF365)
    (fun t => t.run == .halted (.addressFault 0x1000) && t.v[0] == 0x55 && t.v[1] == 0x55 && t.i == 0xFFD) = true := by decide +kernel

/-! ### Timers and the Clock (F5, E4) -/

theorem test_ldVxDt_F5_1 : stepsTo (State.word { fresh with dt := 0x3C } 0xF507) (fun t => t.v[5] == 0x3C && t.dt == 0x3C) = true := by decide +kernel
theorem test_ldDtVx_F5_2 : stepsTo ((fresh.regs [(5, 0x3C)]).word 0xF515) (fun t => t.dt == 0x3C) = true := by decide +kernel
theorem test_ldStVx_F5_3 : stepsTo ((fresh.regs [(6, 2)]).word 0xF618) (fun t => t.st == 2 && sound t) = true := by decide +kernel
theorem test_timerTick_F5_6 : timerTick { fresh with dt := 5, st := 1 } = { fresh with dt := 4, st := 0 } := by decide +kernel
theorem test_timerTick_F5_5 : timerTick fresh = fresh := by decide +kernel
/-- F5.10: 11 cycles and one timer tick are due in a sixtieth of a second at 700 cycles a second. -/
theorem test_due_F5_10 : cyclesDue fresh ⟨1 / 60, by norm_num⟩ = 11 ∧ ticksDue fresh ⟨1 / 60, by norm_num⟩ = 1 := by decide +kernel
/-- F5.9: at 500 cycles a second, 2 cycles are due in the first 0.005 s and 3 in the second. -/
theorem test_due_F5_9 : cyclesDue { fresh with cfg := { baseline with cycleRate := ⟨500, by norm_num⟩ } } ⟨1 / 200, by norm_num⟩ = 2 ∧
    cyclesDue { fresh with cfg := { baseline with cycleRate := ⟨500, by norm_num⟩ }, clk := ⟨⟨1 / 200, by norm_num⟩, 2, 0⟩ } ⟨1 / 200, by norm_num⟩ = 3 := by
  decide +kernel
/-- E4's third call, of a halted CPU: three timer ticks are due and DT counts down to 0, not below. -/
theorem test_tickReference_E4 : (match tickReference ⟨1 / 20, by norm_num⟩
      { fresh with run := .halted .stackOverflow, dt := 2, clk := ⟨⟨1 / 50, by norm_num⟩, 12, 1⟩, cfg := { baseline with cycleRate := ⟨600, by norm_num⟩ } } with
    | .next t => decide (t.dt = 0) && decide (t.clk.ticks = 4) && decide (t.clk.cycles = 42)
    | _ => false) = true := by decide +kernel
/-- P4's schedule: at 600 cycles a second the timer tick falls on every 10th cycle and goes first (R285). -/
theorem test_referenceOrder : tickOrder (referenceOrder { fresh with cfg := { baseline with cycleRate := ⟨600, by norm_num⟩ } }) 10 1 =
    List.replicate 9 .cycle ++ [.timerTick, .cycle] := by decide +kernel

/-! ### Display (F6) -/

theorem test_cls_F6_1 : stepsTo (State.word { fresh with fb := allLit } 0x00E0) (fun t => lit t.fb == [] && t.v[15] == 0) = true := by decide +kernel
/-- F6.5: the coordinates wrap, the rows wrap, the columns are clipped. -/
theorem test_drw_F6_5 : stepsTo (((State.regs { fresh with i := 0x300 } [(0, 0x7C), (1, 0x3F)]).bytes 0x300 [0xFF, 0xFF]).word 0xD012)
    (fun t => lit t.fb == [(60, 0), (61, 0), (62, 0), (63, 0), (60, 31), (61, 31), (62, 31), (63, 31)] && t.v[15] == 0) = true := by decide +kernel
theorem test_drw_F6_9_F6_6 : stepsTo ((State.bytes { fresh with i := 0xFFE } 0xFFE [0xFF, 0xFF]).word 0xD003)
      (fun t => lit t.fb == [] && t.run == .halted (.addressFault 0x1000) && t.pc == 0x202) = true ∧
    stepsTo ((State.bytes { fresh with i := 0x300, fb := oneRow 0 ((Vector.replicate 64 false).set 0 true) } 0x300 [0x81]).word 0xD001)
    (fun t => lit t.fb == [(7, 0)] && t.v[15] == 1) = true := by decide +kernel

/-! ### Keypad (F7) -/

/-- The keypad with one key pressed. -/
def pressed (k : Key) : Vector Bool 16 := (Vector.replicate 16 false).set k true

theorem test_skp_F7_2 : stepsTo ((State.regs { fresh with pc := 0x230 } [(1, 5)]).word 0xE19E) (fun t => t.pc == 0x232) = true := by decide +kernel
theorem test_skp_F7_5 : stepsTo ((State.regs { fresh with pc := 0x230, key := pressed 5 } [(1, 0x15)]).word 0xE19E) (fun t => t.pc == 0x234) = true := by
  decide +kernel
theorem test_sknp_F7_3 : stepsTo ((State.regs { fresh with pc := 0x230 } [(1, 5)]).word 0xE1A1) (fun t => t.pc == 0x234) = true := by decide +kernel
theorem test_sknp_F7_4 : stepsTo ((State.regs { fresh with pc := 0x230, key := pressed 5 } [(1, 5)]).word 0xE1A1) (fun t => t.pc == 0x232) = true := by
  decide +kernel
theorem test_ldVxK_F7_6 : stepsTo (State.word { fresh with pc := 0x230, latch := some 3 } 0xF20A)
    (fun t => t.run == .waitingForKey 2 && t.latch == none && t.pc == 0x232) = true := by decide +kernel
/-- F7.8: a key held before the wait is no edge. -/
theorem test_wait_F7_8 : stepsTo { fresh with run := .waitingForKey 2, key := pressed 9 } (fun t => t.run == .waitingForKey 2 && t.v[2] == 0) = true := by
  decide +kernel
/-- F7.10: the first edge is kept. -/
theorem test_wait_F7_10 : stepsTo (setKey 7 true (setKey 4 true { fresh with run := .waitingForKey 2 }))
    (fun t => t.v[2] == 4 && t.run == .running && t.latch == none) = true := by decide +kernel
/-- F7.9: LEVEL takes a key that is held; with one held, every choice is that one. -/
theorem test_wait_F7_9 (c : Nat) : pickKey c (heldKeys { fresh with key := pressed 9 }) = some 9 := by
  have h : heldKeys { fresh with key := pressed 9 } = [9] := by decide +kernel
  rw [h, pickKey, List.length_singleton, Nat.mod_one]; rfl
theorem test_setKey_F7_13 : (setKey 6 true fresh).key = pressed 6 ∧ (setKey 6 true fresh).latch = none := by decide +kernel

/-! ### The host's ports -/

/-- F7.14 and F2.12: reset keeps keys and memory, and leaves Halted and the wait. -/
theorem test_reset_F7_14 : resetEvent { fresh with run := .waitingForKey 2, latch := some 4, key := pressed 4, pc := 0x444, mem := [(0x300, 1)] } =
    { fresh with key := pressed 4, mem := [(0x300, 1)] } := by decide +kernel
/-- E9. -/
theorem test_load_E9 : (match loadResult (List.replicate 3585 1) fresh with | .error .tooLarge => true | _ => false) = true ∧
    (loadRom [0x6A, 0x0F] fresh).byteAt 0x200 = 0x6A ∧ loadRom [] fresh = fresh := by decide +kernel
/-- R290: the first index is the column. -/
theorem test_fbGet : fbGet { fresh with fb := oneRow 31 ((Vector.replicate 64 false).set 63 true) } 63 31 = .ok true ∧
    fbGet fresh 64 0 = .error .outOfBounds ∧ fbGet fresh 0 32 = .error .outOfBounds := by decide +kernel
/-- R274: the pending host events go first, in order. -/
theorem test_inputs : stepsTo { fresh with inputs := [.setKey 5 true, .reset] } (fun t => t.key == pressed 5 && t.inputs == [.reset] && t.pc == 0x200) = true := by
  decide +kernel
/-- R81: the glyph of digit B at its address. -/
theorem test_font : (List.range 5).map (fun k => fresh.byteAt (0x50 + 5 * 11 + k)) = [0xE0, 0x90, 0xE0, 0x90, 0xE0] := by decide +kernel
/-- Writing back what an unlisted address reads as removes the cell. -/
theorem test_memory_canonical : (Memory.write 0x50 (Memory.write 0x50 [] 0x300 1) 0x300 0) = [] ∧ (Memory.write 0x50 [] 0x50 0xF0) = [] := by decide +kernel

/-! ### Witnesses: for every statement with hypotheses or with clauses over one input, states and operands that meet each of them, at the boundaries -/

/-- `fresh` with 16, 15 and no return addresses. -/
def deep (n : Nat) : State := { fresh with stack := List.replicate n 0x202 }

/-- `fresh` with I set. -/
def withI (a : Word) : State := { fresh with i := a }

theorem clock_fresh : ClockAgrees fresh := by unfold ClockAgrees; decide +kernel

theorem inv_fresh : Inv fresh :=
  ⟨rfl, Nat.zero_le _, fun h => absurd rfl h, fun a h => (by cases h), clock_fresh⟩

theorem witness_DecodeOfEncode : [Instr.sys 0x0DF, .sys 0x0EF, .cls, .loadRegs 15].all Instr.wellFormed = true := by decide
theorem witness_EncodeOfDecode : decodeWord 0xF065 = .ok (.loadRegs 0) ∧ decodeWord 0x0000 = .ok (.sys 0) := by decide
theorem witness_IllegalWords : Illegal 0x5001 ∧ Illegal 0x900F ∧ Illegal 0x8008 ∧ Illegal 0x800F ∧ Illegal 0xE000 ∧ Illegal 0xF000 ∧ ¬ Illegal 0x800E ∧
    ¬ Illegal 0xE09E ∧ ¬ Illegal 0xF065 ∧ ¬ Illegal 0x0000 := by
  refine ⟨?_, ?_, ?_, ?_, ?_, ?_, ?_, ?_, ?_, ?_⟩ <;> (unfold Illegal; decide)
/-- At the highest address from which a word can be fetched. -/
theorem witness_StepRuns : ∃ (s : State) (i : Instr), s.inputs = [] ∧ s.run = .running ∧ s.pc.toNat + 1 < 4096 ∧ i.wellFormed = true ∧
    s.byteAt s.pc.toNat = (encode i).extractLsb' 8 8 ∧ s.byteAt (s.pc.toNat + 1) = (encode i).extractLsb' 0 8 :=
  ⟨State.word { fresh with pc := 0xFFE } 0x6A0F, .ldImm 10 0x0F, by decide +kernel⟩
theorem witness_FetchOutOfRange : ∀ s ∈ [({ fresh with pc := 0xFFF } : State), { fresh with pc := 0x1000 }, { fresh with pc := 0xFFFF }],
    s.inputs = [] ∧ s.run = .running ∧ 4096 ≤ s.pc.toNat + 1 := by decide +kernel
theorem witness_IllegalWordHalts : ∃ (s : State) (w : Word), s.inputs = [] ∧ s.run = .running ∧ s.pc.toNat + 1 < 4096 ∧
    s.byteAt s.pc.toNat = w.extractLsb' 8 8 ∧ s.byteAt (s.pc.toNat + 1) = w.extractLsb' 0 8 ∧ decodeWord w = .error (.invalid w) :=
  ⟨fresh.word 0xFFFF, 0xFFFF, by decide +kernel⟩
theorem witness_RunState : ∃ s t u : State, s.run = .running ∧ exec (.ldImm 1 2) s = .next t ∧ returned t = .ok () ∧
    exec (.ldVxK 1) s = .next u ∧ returned u = .ok () := ⟨fresh, _, _, rfl, exec_ldImm .., rfl, exec_ldVxK .., rfl⟩
theorem witness_Halted : ∃ (s : State) (f : Fault), s.run = .halted f ∧ (∃ t, step s = .next t ∧ s.inputs = []) :=
  ⟨{ fresh with run := .halted .stackOverflow }, _, rfl, _, rfl, rfl⟩
/-- A halted CPU and the one event that ends Halted. -/
theorem witness_Halted_reset : ∃ (s : State) (f : Fault) (t : State), s.run = .halted f ∧ step s = .next t ∧ t.run = .running :=
  ⟨{ fresh with run := .halted .stackOverflow, inputs := [.reset] }, _, _, rfl, rfl, rfl⟩
theorem witness_WaitingCycle : ∃ (s : State) (x : Reg), s.run = .waitingForKey x ∧ s.inputs = [] := ⟨{ fresh with run := .waitingForKey 2 }, 2, rfl, rfl⟩
/-- Every instruction that can fault does in some state; the addresses at the boundary. -/
theorem witness_Faults : fresh.run = .running ∧
    (∃ t, exec .ret fresh = .next t ∧ t.run = .halted .stackUnderflow) ∧
    (∃ t, exec (.call 0x300) (deep 16) = .next t ∧ t.run = .halted .stackOverflow) ∧
    (∃ t, exec (.sys 0x123) fresh = .next t ∧ t.run = .halted (.invalidOpcode 0x0123)) ∧
    (∃ t, exec (.ldB 0) (withI 0xFFE) = .next t ∧ t.run = .halted (.addressFault 0x1000)) ∧
    (∃ t, exec (.storeRegs 0) (withI 0x1000) = .next t ∧ t.run = .halted (.addressFault 0x1000)) ∧
    (∃ t, exec (.loadRegs 15) (withI 0xFFFF) = .next t ∧ t.run = .halted (.addressFault 0xFFFF)) ∧
    (∃ t, exec (.drw 0 0 1) (withI 0x1000) = .next t ∧ t.run = .halted (.addressFault 0x1000)) :=
  ⟨rfl, ⟨_, exec_ret_fault rfl, rfl⟩, ⟨_, exec_call_fault _ (by decide), rfl⟩, ⟨_, exec_sys_fault _ rfl, by decide⟩, ⟨_, exec_ldB_fault (by decide), by decide⟩,
    ⟨_, exec_storeRegs_fault (by decide), by decide⟩, ⟨_, exec_loadRegs_fault (by decide), by decide⟩, ⟨_, exec_drw_fault (by decide) (by decide), by decide⟩⟩
theorem witness_ByteReadsAndWrites : fresh.mem.wf fresh.cfg.fontBase = true ∧ memRead fresh 4095 = .ok 0 ∧ memRead fresh 4096 = .error (.addressFault 4096) ∧
    memRead fresh 0 = .ok 0 := by decide +kernel
theorem witness_FetchIsBigEndian : fetch16 (fresh.bytes 0xFFE [0x12, 0x34]) 0xFFE = .ok 0x1234 ∧ fetch16 fresh 0xFFF = .error (.addressFault 0x1000) ∧
    fetch16 fresh 0x1000 = .error (.addressFault 0x1000) ∧ fetch16 fresh 0x10FE = .error (.addressFault 0x10FE) := by decide +kernel
theorem witness_FetchSeesTheStore : ∃ s t : State, s.mem.wf s.cfg.fontBase = true ∧ s.run = .running ∧ s.inputs = [] ∧ s.pc.toNat ≤ 4094 ∧ s.i = s.pc ∧
    exec (.storeRegs 1) s = .next t :=
  ⟨{ fresh with pc := 0xFFE, i := 0xFFE }, _, rfl, rfl, rfl, by decide, rfl, exec_storeRegs_ok (by decide)⟩
theorem witness_Stack : (deep 16).depth = 16 ∧ (deep 15).depth ≤ 16 ∧ (deep 15).depth ≠ 16 ∧ (deep 15).depth < 16 ∧ (deep 0).depth = 0 ∧
    (deep 1).stack = [0x202] := by decide
theorem witness_Sys : (0x0E1 : Addr12) ≠ 0x0E0 ∧ (0x0E1 : Addr12) ≠ 0x0EE ∧ fresh.cfg.sysPolicy = .fault ∧
    ({ baseline with sysPolicy := .nop } : Config).sysPolicy = .nop := by decide
/-- `0x3FF` is a BNNN address whose top nibble is 3. -/
theorem witness_JpV0 : baseline.jumpReg = .v0 ∧ ({ baseline with jumpReg := .vx } : Config).jumpReg = .vx ∧ (3 : Reg).val = (0x3FF : Addr12).toNat / 256 := by
  decide
theorem witness_Shifts : (baseline.shiftSrc = .vy → (2 : Reg) = 2) ∧ (baseline.shiftSrc = .vx → (2 : Reg) = 1) ∧
    (({ baseline with shiftSrc := .vx } : Config).shiftSrc = .vy → (1 : Reg) = 2) ∧ (({ baseline with shiftSrc := .vx } : Config).shiftSrc = .vx → (1 : Reg) = 1) := by
  decide
theorem witness_Rnd : (0x0F : Byte).getLsbD 4 = false ∧ (5 : Reg) ≠ 6 := by decide
theorem witness_LdF : fresh.mem = [] := rfl
/-- I at the last address that serves and at the first that does not, for three bytes and for sixteen. -/
theorem witness_IndexedAccess : (withI 0xFFD).mem.wf baseline.fontBase = true ∧ (withI 0xFFD).i.toNat + 2 < 4096 ∧ ¬ (withI 0xFFE).i.toNat + 2 < 4096 ∧
    (withI 0xFF0).i.toNat + (15 : Reg).val < 4096 ∧ ¬ (withI 0xFF1).i.toNat + (15 : Reg).val < 4096 := by decide +kernel
theorem witness_StoreThenLoad : ∃ (s t : State) (v : Vector Byte 16), s.mem.wf s.cfg.fontBase = true ∧ s.i.toNat + (15 : Reg).val < 4096 ∧
    exec (.storeRegs 15) s = .next t ∧ ∀ r : Reg, 15 < r → v[r] = s.v[r] :=
  ⟨withI 0xFF0, _, Vector.replicate 16 0x77, by decide +kernel, by decide, exec_storeRegs_ok (by decide), fun r h => absurd h (Fin.not_lt.2 (Fin.le_last r))⟩
theorem witness_TheCpuNeverDecrementsATimer : ∃ t u v : State, exec (.ldStVx 3) fresh = .next t ∧ exec (.ldDtVx 3) fresh = .next u ∧ exec (.ldVxDt 3) fresh = .next v :=
  ⟨_, _, _, exec_ldStVx .., exec_ldDtVx .., exec_ldVxDt ..⟩
/-- A row of one set bit at (0, 0), read from the last byte of memory; an empty sprite at any I; a sprite whose second row is out of range. -/
theorem witness_Drw : Covers ((withI 0xFFF).bytes 0xFFF [0x80]) 0 0 1 0 0 ∧ ¬ Covers ((withI 0xFFF).bytes 0xFFF [0x80]) 0 0 0 0 0 ∧
    (withI 0xFFF).i.toNat + (1 : Count).val ≤ 4096 ∧ (0 : Count) = 0 ∧ ¬ ((withI 0xFFF).i.toNat + (2 : Count).val ≤ 4096 ∨ (2 : Count) = 0) :=
  ⟨⟨0, 0, by decide +kernel⟩, fun ⟨r, _, h, _⟩ => absurd h (Nat.not_lt_zero r), by decide, rfl, by decide⟩
/-- The two collision clauses of DRW: the covered pixel lit, and no pixel lit. -/
theorem witness_Drw_collision : pixel ({ (withI 0xFFF).bytes 0xFFF [0x80] with fb := allLit } : State).fb 0 0 = true ∧
    ∀ px py, pixel ((withI 0xFFF).bytes 0xFFF [0x80]).fb px py = false := ⟨by decide +kernel, pixel_blankScreen⟩
theorem witness_DrawingTwice : ∃ t u, exec (.drw 0 0 1) ((withI 0xFFF).bytes 0xFFF [0x80]) = .next t ∧
    exec (.drw 0 0 1) { t with v := fresh.v } = .next u := ⟨_, _, exec_drw_ok (.inl (by decide)), exec_drw_ok (.inl (by decide))⟩
theorem witness_SkipsOnAKey : ∃ (k : Key) (s : State), k.val = s.v[(1 : Reg)].toNat % 16 ∧ s.key[k] = true :=
  ⟨15, { fresh with v := fresh.v.set 1 0xFF, key := pressed 15 }, by decide +kernel⟩
theorem witness_KeyWait : ∃ s₁ s₂ s₃ s₄ : State, (∀ s ∈ [s₁, s₂, s₃, s₄], s.run = .waitingForKey 2 ∧ s.inputs = []) ∧
    (s₁.cfg.keyWait = .edge ∧ s₁.latch = some 15) ∧ (s₂.cfg.keyWait = .edge ∧ s₂.latch = none) ∧
    (s₃.cfg.keyWait = .level ∧ ∀ k : Key, s₃.key[k] = false) ∧ (s₄.cfg.keyWait = .level ∧ ∃ k : Key, s₄.key[k] = true) :=
  ⟨{ fresh with run := .waitingForKey 2, latch := some 15 }, { fresh with run := .waitingForKey 2 },
    { fresh with run := .waitingForKey 2, cfg := { baseline with keyWait := .level } },
    { fresh with run := .waitingForKey 2, cfg := { baseline with keyWait := .level }, key := pressed 0 }, by decide +kernel⟩
theorem witness_SetKey : (fresh.key[(4 : Key)] = false ∧ (∃ x, ({ fresh with run := .waitingForKey 2 } : State).run = .waitingForKey x) ∧ fresh.latch = none) ∧
    ¬ (∃ x, fresh.run = .waitingForKey x) := ⟨⟨by decide +kernel, ⟨2, rfl⟩, rfl⟩, fun ⟨_, h⟩ => by cases h⟩
theorem witness_Poll : pollAnyPressed 0 fresh = none ∧ pollAnyPressed 0 { fresh with key := pressed 15 } = some 15 ∧ (pressed 15)[(15 : Key)] = true := by decide +kernel
/-- A Running CPU for which events are due, and a cycle that answers a next state. -/
theorem witness_TickRuns : ClockAgrees fresh ∧ fresh.run = .running ∧ cyclesDue fresh ⟨1 / 60, by norm_num⟩ = 11 ∧ ticksDue fresh ⟨1 / 60, by norm_num⟩ = 1 ∧
    ∃ u, cycle fresh = .next u := ⟨clock_fresh, rfl, by decide +kernel, by decide +kernel, _, rfl⟩
/-- Halted; a wait under EDGE with no key latched; a wait under LEVEL with no key held. -/
theorem witness_TickWhileNotRunning : ∃ s₁ s₂ s₃ : State, (∃ f, s₁.run = .halted f) ∧
    ((∃ x, s₂.run = .waitingForKey x) ∧ s₂.cfg.keyWait = .edge ∧ s₂.latch = none) ∧
    ((∃ x, s₃.run = .waitingForKey x) ∧ s₃.cfg.keyWait = .level ∧ ∀ k : Key, s₃.key[k] = false) :=
  ⟨{ fresh with run := .halted .stackOverflow }, { fresh with run := .waitingForKey 2 },
    { fresh with run := .waitingForKey 2, cfg := { baseline with keyWait := .level } }, ⟨_, rfl⟩, ⟨⟨2, rfl⟩, rfl, rfl⟩, ⟨2, rfl⟩, rfl, by decide +kernel⟩
theorem witness_Load : fresh.mem.wf fresh.cfg.fontBase = true ∧ (List.replicate 3584 (0xAA : Byte)).length ≤ 3584 ∧
    (List.replicate 3584 (0xAA : Byte)).length = 3584 ∧ (List.replicate 3585 (0xAA : Byte)).length > 3584 := by
  simp only [List.length_replicate]; exact ⟨rfl, by decide⟩
theorem witness_FramebufferPort : (63 < 64 ∧ 31 < 32) ∧ (64 ≤ 64 ∨ 32 ≤ 0) ∧ (64 ≤ 0 ∨ 32 ≤ 32) := by decide
/-- One next state for each kind of change that the whole-machine rules name. -/
theorem witness_WholeMachine : ∃ a b c d : State, exec (.jp 0x300) fresh = .next a ∧ exec (.call 0x300) fresh = .next b ∧ exec .cls fresh = .next c ∧
    exec (.ldB 0) fresh = .next d := ⟨_, _, _, _, exec_jp .., exec_call_ok _ (by decide), exec_cls .., exec_ldB_ok (by decide)⟩
theorem witness_Registers : ¬ MayWriteReg baseline (.ldImm 1 2) 15 ∧ MayWriteReg baseline (.addReg 1 2) 15 ∧ ¬ MayWriteReg baseline (.orReg 1 2) 15 ∧
    ¬ MayWriteI baseline (.storeRegs 3) ∧ MayWriteI { baseline with lsIndex := .addX } (.storeRegs 3) := by
  simp [MayWriteReg, MayWriteI, baseline]
/-- A state that meets the invariant and takes a step. -/
theorem witness_Invariant : ∃ s t : State, Inv s ∧ step s = .next t := ⟨fresh, _, inv_fresh, rfl⟩

end Sys2Proof.Tests

end
end

namespace Sys2Proof.Proofs

open Sys2Proof.Machine

/-! ### Byte reads and writes (R71, R72) -/

section

variable {s : State} {a c : Nat} {b : Byte}

/-- The byte at an address after one byte is written: the one-byte form of `byteAt_writeList`. -/
theorem byteAt_setMem_write (hm : s.mem.wf s.cfg.fontBase = true) :
    (s.setMem (s.mem.write s.cfg.fontBase a b)).byteAt c = if c = a then b else s.byteAt c :=
  Memory.read_write hm

/-- A write inside memory stores the byte at its address and changes nothing else of the state (R72, R74). -/
theorem memWrite_spec (hm : s.mem.wf s.cfg.fontBase = true) (ha : a < memSize) :
    ∃ t, memWrite s a b = .ok t ∧ memRead t a = .ok b ∧ t = { s with mem := t.mem } ∧
      ∀ c, c ≠ a → t.byteAt c = s.byteAt c := by
  refine ⟨_, memWrite_of_lt ha, ?readBack, rfl, fun c hc => ?others⟩
  case readBack => rw [memRead_of_lt ha, byteAt_setMem_write hm, if_pos rfl]
  case others => rw [byteAt_setMem_write hm, if_neg hc]

end

/-- Settles O15: inside memory by what a write stores and what it leaves, outside by the range check of each operation. -/
theorem byteReadsAndWrites : Obligations.ByteReadsAndWrites := by
  intro s a b hm
  refine ⟨fun inside => ?_, fun outside => ?_⟩
  · have ha : a < memSize := Nat.lt_succ_of_le inside
    exact ⟨memRead_of_lt ha, memWrite_spec hm ha⟩
  · have ha : memSize ≤ a := Nat.lt_of_not_le outside
    exact ⟨memRead_of_le ha, memWrite_of_le ha⟩

end Sys2Proof.Proofs

namespace Sys2Proof.Proofs

open Sys2Proof.Machine

/-! ### The decoder reads back what the encoder writes (R102, R103) -/

/-- In family 0 every address is a SYS word but the two that are CLS and RET (R102). -/
theorem decode0_sys {nnn : Addr12} (hcls : nnn ≠ 0x0E0#12) (hret : nnn ≠ 0x0EE#12) :
    decode0 (formNNN 0x0#4 nnn) = .ok (.sys nnn) := by
  rw [decode0, nnn_formNNN]
  split
  · contradiction
  · contradiction
  · rfl

/-- The word of a well-formed instruction decodes to it: its major opcode picks the family, its low bits the row, and every field is read back. -/
theorem decodeWord_encode {i : Instr} (hi : i.wellFormed = true) : decodeWord (encode i) = .ok i := by
  cases i
  case sys nnn =>
    obtain ⟨hcls, hret⟩ : nnn ≠ 0x0E0#12 ∧ nnn ≠ 0x0EE#12 := by simpa [Instr.wellFormed] using hi
    simpa [encode, decodeWord] using decode0_sys hcls hret
  case cls => rfl
  case ret => rfl
  case jp | call | ldI | jpV0 | seImm | sneImm | ldImm | addImm | rnd | drw => simp [encode, decodeWord]
  case seReg => simp [encode, decodeWord, decode5]
  case sneReg => simp [encode, decodeWord, decode9]
  case skp | sknp => simp [encode, decodeWord, decodeE]
  case ldReg | orReg | andReg | xorReg | addReg | subReg | shr | subn | shl => simp [encode, decodeWord, decode8]
  case ldVxDt | ldVxK | ldDtVx | ldStVx | addI | ldF | ldB | storeRegs | loadRegs => simp [encode, decodeWord, decodeF]

/-! ### The step of a Running CPU whose fetch is in range (R134, R135) -/

section

variable {s : State} (hin : s.inputs = []) (hrun : s.run = .running) (hpc : s.pc.toNat + 1 < memSize)
include hin hrun hpc

/-- The step runs the big-endian word at pc in the advanced state. -/
theorem step_fetched : step s = runWord (wordOfBytes (s.byteAt s.pc.toNat) (s.byteAt (s.pc.toNat + 1))) s.advance := by
  rw [step_noInput hin, cycle_running hrun, runCycle_fetched hpc]

/-- The step runs the word whose two bytes stand at pc. -/
theorem step_fetched_word {w : Word} (hhi : s.byteAt s.pc.toNat = w.hiByte) (hlo : s.byteAt (s.pc.toNat + 1) = w.loByte) :
    step s = runWord w s.advance := by
  rw [step_fetched hin hrun hpc, hhi, hlo, wordOfBytes_hi_lo]

end

/-- Settles O5: the word fetched at pc runs in the advanced state, and the word of a well-formed instruction decodes to it. -/
theorem stepRunsTheDecodedInstruction : Obligations.StepRunsTheDecodedInstruction := by
  intro s hin hrun hpc
  refine ⟨step_fetched hin hrun hpc, fun i hwf hhi hlo => ?_⟩
  calc step s = runWord (encode i) s.advance := step_fetched_word hin hrun hpc hhi hlo
    _ = exec i s.advance := runWord_ok (decodeWord_encode hwf)

/-- Settles O7: the fetched word is illegal, so the advanced state takes InvalidOpcode with that word. -/
theorem illegalWordHalts : Obligations.IllegalWordHalts := by
  intro s w hin hrun hpc hhi hlo hbad
  have hstep : step s = .next (s.advance.setRun (.halted (.invalidOpcode w))) :=
    (step_fetched_word hin hrun hpc hhi hlo).trans (runWord_error hbad)
  exact ⟨_, hstep, rfl, returned_halted rfl⟩

/-! ### The key wait reads neither memory nor pc (R132, R253) -/

section

variable {s : State} {x : Reg}

/-- The completion leaves pc. -/
theorem keyWaitComplete_pc : (keyWaitComplete x s).pc = s.pc := by
  rcases keyWaitComplete_cases x s with h | ⟨k, d, h⟩ <;> rw [h]

/-- A completion begun in a wait never ends Halted, so its cycle returns Ok. -/
theorem returned_keyWaitComplete (h : s.run = .waitingForKey x) : returned (keyWaitComplete x s) = .ok () := by
  rcases keyWaitComplete_cases x s with hidle | ⟨k, d, hkey⟩
  · rw [hidle, returned, h]
  · rw [hkey]; rfl

/-- With other memory and another pc the completion is the same but for that memory and that pc. -/
theorem keyWaitComplete_mem_pc (m : Memory) (p : Word) :
    keyWaitComplete x { s with mem := m, pc := p } = { keyWaitComplete x s with mem := m, pc := p } := by
  have held : heldKeys { s with mem := m, pc := p } = heldKeys s := rfl
  cases hk : s.cfg.keyWait
  case edge => cases hl : s.latch <;> simp only [keyWaitComplete, hk, hl, endKeyWait, State.setV]
  case level =>
    cases hp : pickKey (Config.freeChoice s.draws) (heldKeys s) <;>
      simp only [keyWaitComplete, hk, held, hp, endKeyWait, State.setV, State.drawn]

/-- With no host event pending, the step of a waiting CPU is the completion. -/
theorem step_waiting (hrun : s.run = .waitingForKey x) (hin : s.inputs = []) : step s = .next (keyWaitComplete x s) := by
  rw [step_noInput hin, cycle_waiting hrun]

end

/-- Settles O11: the step is the key-wait completion, which reads neither memory nor pc and does not fault. -/
theorem waitingCycleDoesNotFetch : Obligations.WaitingCycleDoesNotFetch := by
  intro s x hrun hin
  refine ⟨_, step_waiting hrun hin, rfl, keyWaitComplete_pc, returned_keyWaitComplete hrun, fun m p => ?_⟩
  exact ⟨_, step_waiting (s := { s with mem := m, pc := p }) hrun hin, keyWaitComplete_mem_pc m p⟩

/-! ### A halted CPU under each host event (R131, R276) -/

section

variable {s t : State} {f : Fault}

/-- A `load` changes memory alone. -/
theorem loadRom_eq_setMem (rom : List Byte) (s : State) : ∃ m, loadRom rom s = s.setMem m := by
  by_cases h : rom.length ≤ maxRom
  · exact ⟨_, by rw [loadRom, loadResult, if_pos h]⟩
  · exact ⟨s.mem, by rw [loadRom, loadResult, if_neg h]; rfl⟩

/-- A halted CPU's host tick changes the two timers, the Clock and the count of draws alone. -/
theorem tick_halted (h : s.run = .halted f) (e : Time) :
    ∃ (a b : Byte) (c : Clk) (d : Nat), tick e s = .next { s with dt := a, st := b, clk := c, draws := d } := by
  rw [tick, tickWith, runClock_halted (s := s.drawn _) h]
  exact ⟨_, _, _, _, rfl⟩

/-- No host event but `reset` leaves Halted. -/
theorem hostEvent_keeps_halted {ev : HostEvent} (h : s.run = .halted f) (hev : ev ≠ .reset) (ht : hostEvent ev s = .next t) :
    t.run = .halted f := by
  cases ev with
  | clock e =>
    cases e with
    | cycle => cases (cycle_halted h).symm.trans ht; exact h
    | timerTick => cases ht; exact h
  | tick e =>
    obtain ⟨a, b, c, d, htick⟩ := tick_halted h e
    cases htick.symm.trans ht; exact h
  | setKey k p => cases ht; exact h
  | load rom =>
    obtain ⟨m, hload⟩ := loadRom_eq_setMem rom s
    cases ht; rw [hload]; exact h
  | reset => exact absurd rfl hev

end

/-- Settles O9: a step with no host event pending is a halted cycle, and one with an event keeps Halted unless that event is `reset`. -/
theorem haltedCycleChangesNothing : Obligations.HaltedCycleChangesNothing := by
  intro s f h
  refine ⟨cycle_halted h, returned_halted h, fun t ht => ?_⟩
  cases hin : s.inputs with
  | nil =>
    rw [step_noInput hin, cycle_halted h] at ht
    cases ht; exact .inl h
  | cons ev rest =>
    rw [step_input hin] at ht
    by_cases hev : ev = .reset
    · exact .inr ⟨rest, by rw [hev]⟩
    · exact .inl (hostEvent_keeps_halted (s := { s with inputs := rest }) h hev ht)

end Sys2Proof.Proofs

namespace Sys2Proof.Proofs

open Sys2Proof.Machine

/-! ### The stack primitives (R160) -/

section

variable {s t : State} {a : Word}

/-- Below depth 16 a push adds one entry and changes nothing else. -/
theorem push_of_lt (h : s.depth < stackDepth) : push s a = .ok { s with stack := a :: s.stack } := if_neg (Nat.not_le.2 h)

/-- From depth 16 on a push raises StackOverflow. -/
theorem push_of_le (h : stackDepth ≤ s.depth) : push s a = .error .stackOverflow := if_pos h

/-- A pop answers the top entry and the state without it. -/
theorem pop_cons {rest : List Word} (h : s.stack = a :: rest) : pop s = .ok (a, { s with stack := rest }) := by rw [pop, h]

/-- A pop of an empty stack raises StackUnderflow. -/
theorem pop_nil (h : s.stack = []) : pop s = .error .stackUnderflow := by rw [pop, h]

/-- Depth 0 is the empty stack (R35). -/
theorem depth_eq_zero_iff : s.depth = 0 ↔ s.stack = [] := List.length_eq_zero_iff

/-! ### Which instructions change the stack (R138, R160) -/

/-- A skip leaves the stack, whether or not its condition holds (R159). -/
theorem skipIf_stack (s : State) (c : Bool) : (s.skipIf c).stack = s.stack := by rw [State.skipIf_eq, State.setPc_stack]

/-- Every instruction but CALL and RET leaves the stack, whether or not it faults. -/
theorem exec_keeps_stack {i : Instr} (h : exec i s = .next t) (hcall : ∀ nnn, i ≠ .call nnn) (hret : i ≠ .ret) :
    t.stack = s.stack := by
  cases i
  case call nnn => exact absurd rfl (hcall nnn)
  case ret => exact absurd rfl hret
  case sys nnn =>
    cases hp : s.cfg.sysPolicy with
    | nop => cases (exec_sys_nop nnn hp).symm.trans h; rfl
    | fault => cases (exec_sys_fault nnn hp).symm.trans h; rfl
  case seImm | sneImm | seReg | sneReg | skp | sknp => cases h; exact skipIf_stack _ _
  case drw x y n =>
    by_cases fits : s.i.toNat + n.val ≤ memSize ∨ n.val = 0
    · cases (exec_drw_ok fits).symm.trans h; rfl
    · cases (exec_drw_fault (by omega) (by omega)).symm.trans h; rfl
  case ldB x =>
    by_cases fits : s.i.toNat + 3 ≤ memSize
    · cases (exec_ldB_ok fits).symm.trans h; rfl
    · cases (exec_ldB_fault (by omega)).symm.trans h; rfl
  case storeRegs x =>
    by_cases fits : s.i.toNat + (x.val + 1) ≤ memSize
    · cases (exec_storeRegs_ok fits).symm.trans h; rfl
    · cases (exec_storeRegs_fault (by omega)).symm.trans h; rfl
  case loadRegs x =>
    by_cases fits : s.i.toNat + (x.val + 1) ≤ memSize
    · cases (exec_loadRegs_ok fits).symm.trans h; rfl
    · cases (exec_loadRegs_fault (by omega)).symm.trans h; rfl
  case cls | jp | jpV0 | ldImm | addImm | ldReg | orReg | andReg | xorReg | addReg | subReg | shr | subn | shl | rnd | ldI | addI
      | ldF | ldVxDt | ldVxK | ldDtVx | ldStVx => cases h; rfl

/-- An instruction that ends Halted leaves the stack: CALL and RET change it only when they complete, and then the CPU still runs. -/
theorem fault_keeps_stack {i : Instr} {f : Fault} (hrun : s.run = .running) (h : exec i s = .next t) (hf : t.run = .halted f) :
    t.stack = s.stack := by
  have not_completed : t.run ≠ s.run := by rw [hf, hrun]; exact nofun
  by_cases hcall : ∃ nnn, i = .call nnn
  · obtain ⟨nnn, rfl⟩ := hcall
    by_cases room : s.depth < stackDepth
    · cases (exec_call_ok nnn room).symm.trans h; exact absurd rfl not_completed
    · cases (exec_call_fault nnn (Nat.le_of_not_lt room)).symm.trans h; rfl
  · by_cases hret : i = .ret
    · subst hret
      cases hs : s.stack with
      | nil => cases (exec_ret_fault hs).symm.trans h; exact hs
      | cons a rest => cases (exec_ret_ok hs).symm.trans h; exact absurd rfl not_completed
    · exact exec_keeps_stack h (not_exists.1 hcall) hret

end

/-- Settles O18: push by the depth, pop by the stack's shape, and the stack's frame over all instructions. -/
theorem pushAndPop : Obligations.PushAndPop := by
  intro s a hdepth
  refine ⟨fun full => push_of_le full.ge, fun notFull => ?push, fun empty => pop_nil (depth_eq_zero_iff.1 empty),
    fun b rest hs => pop_cons hs, fun i t h hcall hret => exec_keeps_stack h hcall hret, fun i t f => fault_keeps_stack⟩
  case push => exact ⟨_, push_of_lt (lt_of_le_of_ne hdepth notFull), rfl, pop_cons rfl⟩

/-! ### Words of the control-flow families (R102, R104) -/

section

variable {w : Word}

/-- Only family 0 decodes to RET. -/
theorem op_of_decodeWord_ret (h : decodeWord w = .ok .ret) : w.op = 0x0#4 := by
  rw [decodeWord] at h
  split at h
  case h_1 hop => exact hop
  case h_6 => rw [decode5] at h; split at h <;> cases h
  case h_9 => rw [decode8] at h; split at h <;> cases h
  case h_10 => rw [decode9] at h; split at h <;> cases h
  case h_15 => rw [decodeE] at h; split at h <;> cases h
  case h_16 => rw [decodeF] at h; split at h <;> cases h
  all_goals cases h

/-- In family 0 only the address 0EE decodes to RET. -/
theorem nnn_of_decode0_ret (h : decode0 w = .ok .ret) : w.nnn = 0x0EE#12 := by
  rw [decode0] at h
  split at h
  · cases h
  · assumption
  · cases h

/-- RET is exactly the word 00EE: its major opcode and its address make the word. -/
theorem decodeWord_eq_ret_iff : decodeWord w = .ok .ret ↔ w = 0x00EE := by
  refine ⟨fun h => ?_, fun h => h ▸ rfl⟩
  have hop : w.op = 0x0#4 := op_of_decodeWord_ret h
  have hnnn : w.nnn = 0x0EE#12 := nnn_of_decode0_ret (by simpa only [decodeWord, hop] using h)
  calc w = formNNN w.op w.nnn := (formNNN_fields w).symm
    _ = 0x00EE := by rw [hop, hnnn]; rfl

/-- In families 5 and 9 a word whose low nibble is not 0 is illegal (R104). -/
theorem decodeWord_invalid_of_lowNibble (hop : w.op = 0x5#4 ∨ w.op = 0x9#4) (hn : w.n ≠ 0x0#4) : decodeWord w = .error (.invalid w) := by
  rcases hop with hop | hop
  · simp only [decodeWord, hop, decode5]
  · simp only [decodeWord, hop, decode9]

end

/-- Settles O21: 00EE alone decodes to RET, which pops pc or, on an empty stack, faults. -/
theorem retPopsThePc : Obligations.RetPopsThePc :=
  ⟨fun _ => decodeWord_eq_ret_iff, fun _ => ⟨fun _ _ hs => exec_ret_ok hs, fun empty => exec_ret_fault (depth_eq_zero_iff.1 empty)⟩⟩

/-- Settles O22: the jump sets pc to the zero-extended address, whose value is that of NNN. -/
theorem jpSetsThePc : Obligations.JpSetsThePc := by
  intro nnn s
  exact ⟨decodeWord_encode (i := .jp nnn) rfl, _, exec_jp s nnn, toNat_zextAddr nnn, rfl⟩

/-- Settles O23: the two cases of the push, of the advanced pc. -/
theorem callPushesTheReturnAddress : Obligations.CallPushesTheReturnAddress := by
  intro nnn s
  exact ⟨decodeWord_encode (i := .call nnn) rfl, fun room => ⟨_, exec_call_ok nnn room, toNat_zextAddr nnn, rfl⟩,
    fun full => exec_call_fault nnn full.ge⟩

/-- Settles O24: the words of the four skips, the illegal words of families 5 and 9, and what each skip does to pc. -/
theorem skipsOnRegisterValues : Obligations.SkipsOnRegisterValues := by
  intro x y nn s
  refine ⟨decodeWord_encode (i := .seImm x nn) rfl, decodeWord_encode (i := .sneImm x nn) rfl,
    decodeWord_encode (i := .seReg x y) rfl, decodeWord_encode (i := .sneReg x y) rfl, fun n hn => ⟨?family5, ?family9⟩,
    exec_seImm s x nn, exec_sneImm s x nn, exec_seReg s x y, exec_sneReg s x y⟩
  case family5 => exact decodeWord_invalid_of_lowNibble (.inl (op_formXYN 0x5#4 n x y)) (ne_of_eq_of_ne (n_formXYN 0x5#4 n x y) hn)
  case family9 => exact decodeWord_invalid_of_lowNibble (.inr (op_formXYN 0x9#4 n x y)) (ne_of_eq_of_ne (n_formXYN 0x9#4 n x y) hn)

end Sys2Proof.Proofs

namespace Sys2Proof.Proofs

open Sys2Proof.Machine

/-! ### The register loads and the immediate addition (R171 to R173) -/

/-- The sum modulo 256 as the statements write it is the machine's byte addition (R172). -/
theorem byte_ofNat_sum_mod (a b : Byte) : BitVec.ofNat 8 ((a.toNat + b.toNat) % 256) = a + b :=
  BitVec.eq_of_toNat_eq <| by rw [BitVec.toNat_ofNat, Nat.mod_mod, BitVec.toNat_add]

/-- Settles O26: the decoded words, and for each instruction one register write, the sum being the byte addition. -/
theorem loadsAndImmediateAdd : Obligations.LoadsAndImmediateAdd := by
  intro x y nn s
  refine ⟨decodeWord_encode (i := .ldImm x nn) rfl, decodeWord_encode (i := .addImm x nn) rfl,
    decodeWord_encode (i := .ldReg x y) rfl, exec_ldImm s x nn, ?addImm, exec_ldReg s x y⟩
  case addImm =>
    rw [byte_ofNat_sum_mod]
    exact exec_addImm s x nn

end Sys2Proof.Proofs

namespace Sys2Proof.Proofs

open Sys2Proof.Machine Sys2Proof.Claims

/-! ### The index register and the stored digits (R200, R203) -/

/-- A state after bytes that fit are written has those bytes, reads every other address as before and differs in nothing else. -/
theorem afterBytes_writeList {s : State} {a : Nat} {bs : List Byte} (hm : s.mem.wf s.cfg.fontBase = true) (fits : a + bs.length ≤ memSize) :
    AfterBytes s (s.setMem (s.mem.writeList s.cfg.fontBase a bs)) a bs :=
  ⟨rfl, fun _ => byteAt_writeList hm fits⟩

/-- Settles O35: where the three addresses fit, LD B writes the list of the three digits; where they do not, it takes the fault alone. -/
theorem ldBStoresDecimalDigits : Obligations.LdBStoresDecimalDigits := by
  intro x s hm
  refine ⟨decodeWord_encode (i := .ldB x) rfl, fun inside => ?stores, fun outside => ?faults⟩
  case stores =>
    have fits : s.i.toNat + (decimalDigits s.v[x]).length ≤ memSize := inside
    exact ⟨_, exec_ldB_ok fits, afterBytes_writeList hm fits⟩
  case faults =>
    have past : memSize < s.i.toNat + 3 := Nat.lt_succ_of_le (Nat.le_of_not_lt outside)
    exact exec_ldB_fault past

/-- Settles O32: LD I sets I to the zero-extended address, whose value is that of NNN. -/
theorem ldISetsTheIndex : Obligations.LdISetsTheIndex := by
  intro nnn s
  exact ⟨decodeWord_encode (i := .ldI nnn) rfl, _, exec_ldI s nnn, toNat_zextAddr nnn, rfl⟩

end Sys2Proof.Proofs

namespace Sys2Proof.Proofs

open Sys2Proof.Machine

/-! ### The timers and the instructions (R220 to R223) -/

/-- The state with both timers replaced. -/
def withTimers (a b : Byte) (s : State) : State := { s with dt := a, st := b }

/-- One of the three instructions that name a timer (R220 to R222). -/
def TimerInstr (i : Instr) : Prop := ∃ x, i = .ldVxDt x ∨ i = .ldDtVx x ∨ i = .ldStVx x

section

variable {i : Instr} {s t : State}

@[simp] theorem withTimers_dt (a b : Byte) (s : State) : (withTimers a b s).dt = a := rfl
@[simp] theorem withTimers_st (a b : Byte) (s : State) : (withTimers a b s).st = b := rfl

/-- A skip neither reads nor writes a timer (R159). -/
theorem skipIf_withTimers (a b : Byte) (s : State) (c : Bool) :
    (withTimers a b s).skipIf c = withTimers a b (s.skipIf c) := by cases c <;> rfl

/-- From other timers an instruction that names none does the same and leaves those timers, whether or not it faults (R223). -/
theorem exec_withTimers (hi : ¬ TimerInstr i) (h : exec i s = .next t) (a b : Byte) :
    exec i (withTimers a b s) = .next (withTimers a b t) := by
  cases i
  case ldVxDt x => exact absurd ⟨x, .inl rfl⟩ hi
  case ldDtVx x => exact absurd ⟨x, .inr (.inl rfl)⟩ hi
  case ldStVx x => exact absurd ⟨x, .inr (.inr rfl)⟩ hi
  case sys nnn =>
    cases hp : s.cfg.sysPolicy with
    | nop => cases (exec_sys_nop nnn hp).symm.trans h; exact exec_sys_nop nnn hp
    | fault => cases (exec_sys_fault nnn hp).symm.trans h; exact exec_sys_fault nnn hp
  case ret =>
    cases hs : s.stack with
    | nil => cases (exec_ret_fault hs).symm.trans h; exact exec_ret_fault hs
    | cons w rest => cases (exec_ret_ok hs).symm.trans h; exact exec_ret_ok hs
  case call nnn =>
    by_cases room : s.depth < stackDepth
    · cases (exec_call_ok nnn room).symm.trans h; exact exec_call_ok nnn room
    · have full : stackDepth ≤ s.depth := Nat.le_of_not_lt room
      cases (exec_call_fault nnn full).symm.trans h; exact exec_call_fault nnn full
  case seImm | sneImm | seReg | sneReg | skp | sknp => cases h; exact congrArg _ (skipIf_withTimers a b s _)
  case drw x y n =>
    by_cases fits : s.i.toNat + n.val ≤ memSize ∨ n.val = 0
    · cases (exec_drw_ok fits).symm.trans h; exact exec_drw_ok (s := withTimers a b s) fits
    · obtain ⟨past, rows⟩ : memSize < s.i.toNat + n.val ∧ n.val ≠ 0 := by omega
      cases (exec_drw_fault past rows).symm.trans h; exact exec_drw_fault (s := withTimers a b s) past rows
  case ldB x =>
    by_cases fits : s.i.toNat + 3 ≤ memSize
    · cases (exec_ldB_ok fits).symm.trans h; exact exec_ldB_ok (s := withTimers a b s) fits
    · have past : memSize < s.i.toNat + 3 := Nat.lt_of_not_le fits
      cases (exec_ldB_fault past).symm.trans h; exact exec_ldB_fault (s := withTimers a b s) past
  case storeRegs x =>
    by_cases fits : s.i.toNat + (x.val + 1) ≤ memSize
    · cases (exec_storeRegs_ok fits).symm.trans h; exact exec_storeRegs_ok (s := withTimers a b s) fits
    · have past : memSize < s.i.toNat + (x.val + 1) := Nat.lt_of_not_le fits
      cases (exec_storeRegs_fault past).symm.trans h; exact exec_storeRegs_fault (s := withTimers a b s) past
  case loadRegs x =>
    by_cases fits : s.i.toNat + (x.val + 1) ≤ memSize
    · cases (exec_loadRegs_ok fits).symm.trans h; exact exec_loadRegs_ok (s := withTimers a b s) fits
    · have past : memSize < s.i.toNat + (x.val + 1) := Nat.lt_of_not_le fits
      cases (exec_loadRegs_fault past).symm.trans h; exact exec_loadRegs_fault (s := withTimers a b s) past
  case cls | jp | jpV0 | ldImm | addImm | ldReg | orReg | andReg | xorReg | addReg | subReg | shr | subn | shl | rnd | ldI | addI
      | ldF | ldVxK => cases h; rfl

/-- An instruction that names no timer leaves both: put in its own timers, it ends in the state with those timers. -/
theorem exec_keeps_timers (hi : ¬ TimerInstr i) (h : exec i s = .next t) : t.dt = s.dt ∧ t.st = s.st := by
  have same : exec i s = .next (withTimers s.dt s.st t) := exec_withTimers hi h s.dt s.st
  have ht : t = withTimers s.dt s.st t := Host.Outcome.next.inj (h.symm.trans same)
  exact ⟨by rw [ht, withTimers_dt], by rw [ht, withTimers_st]⟩

/-- The sound output is on exactly when ST is not 0 (R286). -/
theorem sound_iff : sound s = true ↔ s.st ≠ 0 := bne_iff_ne

end

/-- Settles O40: the three timer instructions by what each writes, every other instruction by its independence of both timers. -/
theorem theCpuNeverDecrementsATimer : Obligations.TheCpuNeverDecrementsATimer := by
  intro i s t b h
  by_cases hi : TimerInstr i
  · obtain ⟨x, rfl | rfl | rfl⟩ := hi
    · cases (exec_ldVxDt s x).symm.trans h
      exact ⟨fun _ => rfl, nofun, fun _ => rfl, nofun, fun other => absurd rfl (other x), _, rfl, rfl⟩
    · cases (exec_ldDtVx s x).symm.trans h
      exact ⟨fun other => absurd rfl (other x), fun _ hx => by cases hx; rfl, fun _ => rfl, nofun, fun _ => ⟨_, rfl, rfl⟩, _, rfl, rfl⟩
    · cases (exec_ldStVx s x).symm.trans h
      exact ⟨fun _ => rfl, nofun, fun other => absurd rfl (other x), fun _ hx => by cases hx; rfl, fun _ => ⟨_, rfl, rfl⟩, _, rfl, rfl⟩
  · obtain ⟨hdt, hst⟩ := exec_keeps_timers hi h
    refine ⟨fun _ => hdt, fun x hx => absurd ⟨x, .inr (.inl hx)⟩ hi, fun _ => hst, fun x hx => absurd ⟨x, .inr (.inr hx)⟩ hi,
      fun _ => ⟨_, exec_withTimers hi h b s.st, ?otherDt⟩, _, exec_withTimers hi h s.dt b, ?otherSt⟩
    case otherDt => rw [← hst]; rfl
    case otherSt => rw [← hdt]; rfl

/-- Settles O39: the decoded words, the one write of each instruction, and the sound output read off the ST that FX18 leaves. -/
theorem timerInstructions : Obligations.TimerInstructions := by
  intro x s
  exact ⟨decodeWord_encode (i := .ldVxDt x) rfl, decodeWord_encode (i := .ldDtVx x) rfl, decodeWord_encode (i := .ldStVx x) rfl,
    exec_ldVxDt s x, exec_ldDtVx s x, exec_ldStVx s x, sound_iff⟩

end Sys2Proof.Proofs

namespace Sys2Proof.Proofs

open Sys2Proof.Machine

/-! ### A decoded word is the word of its instruction (R102, R103) -/

section

variable {w : Word} {i : Instr}

/-- A word is its opcode and its address, whatever terms those are given by. -/
theorem formNNN_of_fields {o : BitVec 4} {nnn : Addr12} (hop : w.op = o) (hnnn : w.nnn = nnn) : formNNN o nnn = w := by
  rw [← hop, ← hnnn, formNNN_fields]

/-- A word is its opcode, its two registers and its low nibble, whatever terms opcode and nibble are given by. -/
theorem formXYN_of_fields {o n : BitVec 4} (hop : w.op = o) (hn : w.n = n) : formXYN o w.x w.y n = w := by
  rw [← hop, ← hn, formXYN_fields]

/-- A word is its opcode, its register and its low byte, whatever terms opcode and byte are given by. -/
theorem formXNN_of_fields {o : BitVec 4} {nn : Byte} (hop : w.op = o) (hnn : w.nn = nn) : formXNN o w.x nn = w := by
  rw [← hop, ← hnn, formXNN_fields]

/-- Family by family: the instruction that the family's decoder answers is encoded as the word it came from. -/
theorem encode_of_decode0 (hop : w.op = 0x0#4) (h : decode0 w = .ok i) : encode i = w := by
  rw [decode0] at h
  split at h <;> cases h
  case h_1 hnnn | h_2 hnnn => exact formNNN_of_fields hop hnnn
  case h_3 => exact formNNN_of_fields hop rfl

theorem encode_of_decode5 (hop : w.op = 0x5#4) (h : decode5 w = .ok i) : encode i = w := by
  rw [decode5] at h
  split at h <;> cases h
  case h_1 hn => exact formXYN_of_fields hop hn

theorem encode_of_decode8 (hop : w.op = 0x8#4) (h : decode8 w = .ok i) : encode i = w := by
  rw [decode8] at h
  split at h <;> cases h
  all_goals exact formXYN_of_fields hop ‹_›

theorem encode_of_decode9 (hop : w.op = 0x9#4) (h : decode9 w = .ok i) : encode i = w := by
  rw [decode9] at h
  split at h <;> cases h
  case h_1 hn => exact formXYN_of_fields hop hn

theorem encode_of_decodeE (hop : w.op = 0xE#4) (h : decodeE w = .ok i) : encode i = w := by
  rw [decodeE] at h
  split at h <;> cases h
  all_goals exact formXNN_of_fields hop ‹_›

theorem encode_of_decodeF (hop : w.op = 0xF#4) (h : decodeF w = .ok i) : encode i = w := by
  rw [decodeF] at h
  split at h <;> cases h
  all_goals exact formXNN_of_fields hop ‹_›

/-- The decoder takes each instruction from one word only, the one the encoder writes: no bit of a decoded word is dropped. -/
theorem encode_of_decodeWord (h : decodeWord w = .ok i) : encode i = w := by
  rw [decodeWord] at h
  split at h
  case h_1 hop => exact encode_of_decode0 hop h
  case h_6 hop => exact encode_of_decode5 hop h
  case h_9 hop => exact encode_of_decode8 hop h
  case h_10 hop => exact encode_of_decode9 hop h
  case h_15 hop => exact encode_of_decodeE hop h
  case h_16 =>
    -- The last arm is taken by the one opcode that the fifteen before it leave.
    have opF : w.op = 0xF#4 := by
      generalize w.op = o at *
      revert o
      decide
    exact encode_of_decodeF opF h
  case h_2 hop | h_3 hop | h_11 hop | h_12 hop => cases h; exact formNNN_of_fields hop rfl
  case h_4 hop | h_5 hop | h_7 hop | h_8 hop | h_13 hop => cases h; exact formXNN_of_fields hop rfl
  case h_14 hop => cases h; exact formXYN_of_fields hop rfl

/-- A well-formed instruction is decoded from its own word and from no other. -/
theorem decodeWord_eq_ok_iff (hi : i.wellFormed = true) : decodeWord w = .ok i ↔ w = encode i :=
  ⟨fun h => (encode_of_decodeWord h).symm, fun h => h ▸ decodeWord_encode hi⟩

end

/-! ### CLS (R230) -/

/-- Settles O42: CLS is decoded from its own word alone, and it writes the blank screen, whose every pixel is unlit. -/
theorem clsClearsEveryPixel : Obligations.ClsClearsEveryPixel :=
  ⟨fun _ => decodeWord_eq_ok_iff (i := .cls) rfl, fun s => ⟨s.setFb blankScreen, exec_cls s, pixel_blankScreen, rfl⟩⟩

end Sys2Proof.Proofs

namespace Sys2Proof.Proofs

open Sys2Proof.Machine

/-! ### Halted under a cycle and a tick (R277) -/

/-- Settles O10: a halted cycle answers its own state, and a halted tick, whatever its events, changes only the timers, the Clock and the count of draws,
so `run` still holds the fault that it returns. -/
theorem haltedIsSticky : Obligations.HaltedIsSticky := by
  intro s f h
  refine ⟨⟨cycle_halted h, returned_halted h⟩, fun e => ?_⟩
  obtain ⟨dt, st, clk, draws, htick⟩ := tick_halted h e
  have still : returned { s with dt, st, clk, draws } = .error f := returned_halted h
  exact ⟨_, htick, still, rfl, rfl, rfl, rfl, rfl, rfl⟩

end Sys2Proof.Proofs

namespace Sys2Proof.Proofs

open Sys2Proof.Machine

/-! ### The two answers of `load` (R313, R314) -/

section

variable {rom : List Byte} {s : State}

/-- A ROM that fits is written from the program's base on. -/
theorem loadResult_ok (h : rom.length ≤ maxRom) :
    loadResult rom s = .ok (s.setMem (s.mem.writeList s.cfg.fontBase programBase rom)) := if_pos h

/-- A ROM that does not fit is refused. -/
theorem loadResult_tooLarge (h : maxRom < rom.length) : loadResult rom s = .error .tooLarge := if_neg h.not_ge

/-- The `load` event takes no effect when the port refuses its ROM. -/
theorem hostEvent_load_error {e : LoadError} (h : loadResult rom s = .error e) : hostEvent (.load rom) s = .next s := by
  rw [hostEvent, loadRom, h]

end

/-- Settles O56: a refused ROM leaves the state as it was; one of 3584 bytes covers exactly the addresses from 0x200 to 0xFFF, so each of them reads its
own byte of the ROM; and the empty one writes an empty list. -/
theorem loadTooLargeChangesNothing : Obligations.LoadTooLargeChangesNothing := by
  intro rom s hwf
  refine ⟨fun large => ?tooLarge, fun full => ⟨_, loadResult_ok full.le, fun a lo hi => ?full⟩, ?empty⟩
  case tooLarge =>
    have refused : loadResult rom s = .error .tooLarge := loadResult_tooLarge large
    exact ⟨refused, hostEvent_load_error refused⟩
  case full =>
    have fits : programBase + rom.length ≤ memSize := by rw [full]
    have covered : programBase ≤ a ∧ a < programBase + rom.length := ⟨lo, by rw [full]; exact Nat.lt_succ_of_le hi⟩
    exact (byteAt_writeList hwf fits).trans (if_pos covered)
  case empty => exact loadResult_ok (Nat.zero_le _)

end Sys2Proof.Proofs

namespace Sys2Proof.Proofs

open Sys2Proof.Machine Sys2Proof.Claims

/-! ### The round trip between words and instructions (R102, R103, R107) -/

section

variable {w : Word} {i : Instr}

/-- A decoder of bytes consumes the two bytes of a legal word and no more (R107). -/
theorem decodeBytes_of_decodeWord (h : decodeWord w = .ok i) (rest : List Byte) :
    decodeBytes (w.hiByte :: w.loByte :: rest) = .ok (i, rest) := by
  rw [decodeBytes, wordOfBytes_hi_lo, h]

/-- Family 0 answers a SYS only for an address that is neither that of CLS nor that of RET (R102). -/
theorem wellFormed_of_decode0 (h : decode0 w = .ok i) : i.wellFormed = true := by
  rw [decode0] at h
  split at h <;> cases h
  case h_1 | h_2 => rfl
  case h_3 hcls hret => simpa [Instr.wellFormed] using And.intro hcls hret

/-- The decoder answers a SYS in family 0 only. -/
theorem decode0_of_decodeWord_sys {nnn : Addr12} (h : decodeWord w = .ok (.sys nnn)) : decode0 w = .ok (.sys nnn) := by
  rw [decodeWord] at h
  split at h
  case h_1 => exact h
  case h_6 => rw [decode5] at h; split at h <;> cases h
  case h_9 => rw [decode8] at h; split at h <;> cases h
  case h_10 => rw [decode9] at h; split at h <;> cases h
  case h_15 => rw [decodeE] at h; split at h <;> cases h
  case h_16 => rw [decodeF] at h; split at h <;> cases h
  all_goals cases h

/-- What the decoder answers is an instruction: only a SYS can fail to be one. -/
theorem wellFormed_of_decodeWord (h : decodeWord w = .ok i) : i.wellFormed = true := by
  cases i
  case sys nnn => exact wellFormed_of_decode0 (decode0_of_decodeWord_sys h)
  all_goals rfl

end

/-- Settles O1: the word of an instruction decodes to it, and its bytes are the two halves of that word. -/
theorem decodeOfEncode : Obligations.DecodeOfEncode :=
  fun _ hwf => ⟨decodeWord_encode hwf, decodeBytes_of_decodeWord (decodeWord_encode hwf)⟩

/-- Settles O2: a decoded instruction is well formed, and the word it came from is the one it encodes to. -/
theorem encodeOfDecode : Obligations.EncodeOfDecode :=
  fun _ _ h => ⟨wellFormed_of_decodeWord h, encode_of_decodeWord h⟩

/-! ### The illegal words (R104) -/

section

variable (w : Word)

theorem toNat_op : w.op.toNat = w.toNat / 4096 := by
  have := w.isLt
  simp only [Word.op, BitVec.extractLsb'_toNat, Nat.shiftRight_eq_div_pow]; omega

theorem toNat_n : w.n.toNat = w.toNat % 16 := by simp [Word.n, BitVec.extractLsb'_toNat]

theorem toNat_nn : w.nn.toNat = w.toNat % 256 := by simp [Word.nn, BitVec.extractLsb'_toNat]

/-- The words that a decoder takes as instructions are those outside a set, and those inside are answered with themselves (R104). -/
def Separates (illegal : Prop) (answer : Except DecodeError Instr) : Prop :=
  (illegal ∧ answer = .error (.invalid w)) ∨ (¬ illegal ∧ ∃ i, answer = .ok i)

variable {w}

theorem decode5_separates : Separates w (w.toNat % 16 ≠ 0) (decode5 w) := by
  rw [← toNat_n, decode5]
  split
  case h_1 hn => exact .inr ⟨by rw [hn]; decide, _, rfl⟩
  case h_2 hn => exact .inl ⟨fun h => hn (BitVec.eq_of_toNat_eq h), rfl⟩

theorem decode9_separates : Separates w (w.toNat % 16 ≠ 0) (decode9 w) := by
  rw [← toNat_n, decode9]
  split
  case h_1 hn => exact .inr ⟨by rw [hn]; decide, _, rfl⟩
  case h_2 hn => exact .inl ⟨fun h => hn (BitVec.eq_of_toNat_eq h), rfl⟩

theorem decode8_separates : Separates w (w.toNat % 16 ∈ [0x8, 0x9, 0xA, 0xB, 0xC, 0xD, 0xF]) (decode8 w) := by
  rw [← toNat_n, decode8]
  split
  case h_10 =>
    refine .inl ⟨?_, rfl⟩
    generalize w.n = n at *
    revert n
    decide
  all_goals exact .inr ⟨by simp only [*]; decide, _, rfl⟩

theorem decodeE_separates : Separates w (w.toNat % 256 ∉ [0x9E, 0xA1]) (decodeE w) := by
  rw [← toNat_nn, decodeE]
  split
  case h_3 =>
    refine .inl ⟨?_, rfl⟩
    generalize w.nn = nn at *
    revert nn
    decide
  all_goals exact .inr ⟨by simp only [*]; decide, _, rfl⟩

theorem decodeF_separates :
    Separates w (w.toNat % 256 ∉ [0x07, 0x0A, 0x15, 0x18, 0x1E, 0x29, 0x33, 0x55, 0x65]) (decodeF w) := by
  rw [← toNat_nn, decodeF]
  split
  case h_10 =>
    refine .inl ⟨?_, rfl⟩
    generalize w.nn = nn at *
    revert nn
    decide
  all_goals exact .inr ⟨by simp only [*]; decide, _, rfl⟩

/-- The opcode as a number, whatever term it is given by. -/
theorem div_of_op {o : BitVec 4} (ho : w.op = o) : w.toNat / 4096 = o.toNat := by rw [← toNat_op, ho]

/-- Only families 5, 8, 9, E and F have illegal words (R104). -/
theorem not_illegal_of_op {o : BitVec 4} (ho : w.op = o) (h : o.toNat ∉ [5, 8, 9, 14, 15]) : ¬ Illegal w := by
  rw [Illegal, div_of_op ho]
  simp only [List.mem_cons, List.not_mem_nil, or_false, not_or] at h
  omega

/-- The illegal words of one family are those that the table lists for its opcode. -/
theorem Separates.of_opcode {P : Prop} {answer : Except DecodeError Instr} (h : Separates w P answer) (hP : Illegal w ↔ P) :
    Separates w (Illegal w) answer := by rwa [Separates, hP]

/-- The decoder's illegal words are those of the table, family by family. -/
theorem decodeWord_separates : Separates w (Illegal w) (decodeWord w) := by
  rw [decodeWord]
  split
  case h_1 hop =>
    refine .inr ⟨not_illegal_of_op hop (by decide), ?_⟩
    rw [decode0]; split <;> exact ⟨_, rfl⟩
  case h_6 hop => exact decode5_separates.of_opcode (by simp [Illegal, div_of_op hop])
  case h_9 hop => exact decode8_separates.of_opcode (by simp [Illegal, div_of_op hop])
  case h_10 hop => exact decode9_separates.of_opcode (by simp [Illegal, div_of_op hop])
  case h_15 hop => exact decodeE_separates.of_opcode (by simp [Illegal, div_of_op hop])
  case h_16 =>
    have hop : w.op = 0xF#4 := by
      generalize w.op = o at *
      revert o
      decide
    exact decodeF_separates.of_opcode (by simp [Illegal, div_of_op hop])
  all_goals exact .inr ⟨not_illegal_of_op ‹_› (by decide), _, rfl⟩

end

/-- Settles O3: the decoder separates the words of the table from all others. -/
theorem illegalWordsAreThoseOfTheTable : Obligations.IllegalWordsAreThoseOfTheTable := by
  intro w
  rcases decodeWord_separates (w := w) with ⟨hill, herr⟩ | ⟨hleg, hok⟩
  · exact ⟨fun _ => herr, fun h => absurd hill h⟩
  · exact ⟨fun h => absurd h hleg, fun _ => hok⟩

/-- Settles O4: eleven closed words, each decoded by evaluation. -/
theorem exampleWordsDecode : Obligations.ExampleWordsDecode := by
  unfold Obligations.ExampleWordsDecode
  decide

end Sys2Proof.Proofs

namespace Sys2Proof.Proofs

open Sys2Proof.Machine Sys2Proof.Claims

/-! ### What one instruction can do (R136 to R138, R270) -/

/-- Instruction `i`, begun in `s`, raises fault `f`: who raises which fault, and what the fault records (R150, R151, R153, R270). -/
inductive Raises (s : State) : Instr → Fault → Prop
  | sys {nnn : Addr12} (h : s.cfg.sysPolicy = .fault) : Raises s (.sys nnn) (.invalidOpcode (zextAddr nnn))
  | ret (h : s.stack = []) : Raises s .ret .stackUnderflow
  | call {nnn : Addr12} (h : stackDepth ≤ s.depth) : Raises s (.call nnn) .stackOverflow
  | drw {x y : Reg} {n : Count} : Raises s (.drw x y n) (.addressFault (max s.i.toNat memSize))
  | ldB {x : Reg} : Raises s (.ldB x) (.addressFault (max s.i.toNat memSize))
  | storeRegs {x : Reg} : Raises s (.storeRegs x) (.addressFault (max s.i.toNat memSize))
  | loadRegs {x : Reg} : Raises s (.loadRegs x) (.addressFault (max s.i.toNat memSize))

/-- What an instruction that completes has done to `run`, and what it has left as it was: each field by the instructions that may change it. A clause that
holds by computation is filled in where the structure is built. -/
structure Completed (i : Instr) (s t : State) : Prop where
  run : (∀ x, i ≠ .ldVxK x) → t.run = s.run := by intros; rfl
  wait : ∀ x, i = .ldVxK x → t.run = .waitingForKey x := by nofun
  v : ∀ r : Reg, ¬ MayWriteReg s.cfg i r → t.v[r] = s.v[r] := by intros; rfl
  index : ¬ MayWriteI s.cfg i → t.i = s.i := by intros; rfl
  depth : s.depth ≤ stackDepth → t.depth ≤ stackDepth := by exact id
  fb : i ≠ .cls → (∀ x y n, i ≠ .drw x y n) → t.fb = s.fb := by intros; rfl
  mem : (∀ x, i ≠ .ldB x) → (∀ x, i ≠ .storeRegs x) → t.mem = s.mem := by intros; rfl
  wf : s.mem.wf s.cfg.fontBase = true → t.mem.wf s.cfg.fontBase = true := by exact id
  latch : (∀ x, i ≠ .ldVxK x) → t.latch = s.latch := by intros; rfl
  draws : (∀ x nn, i ≠ .rnd x nn) → t.draws = s.draws := by intros; rfl
  key : t.key = s.key := by rfl
  clk : t.clk = s.clk := by rfl
  cfg : t.cfg = s.cfg := by rfl
  inputs : t.inputs = s.inputs := by rfl

section

variable {i : Instr} {s t : State} {x y r : Reg} {b : Byte} {c : Bool}

/-! The register file after each way of writing it, at a register that is not written -/

theorem getElem_setV_of_ne (h : r ≠ x) : (s.setV x b).v[r] = s.v[r] := by rw [State.getElem_setV, if_neg h]

theorem getElem_writeXF_of_ne (h : ¬ (r = x ∨ r = 15)) : (writeXF s x b c).v[r] = s.v[r] := by
  obtain ⟨hx, hvf⟩ := not_or.1 h
  rw [getElem_writeXF, if_neg hvf, if_neg hx]

theorem getElem_writeLogic_of_ne (h : ¬ (r = x ∨ (r = 15 ∧ s.cfg.logicVf = .reset))) : (writeLogic s x b).v[r] = s.v[r] := by
  obtain ⟨hx, hvf⟩ := not_or.1 h
  rw [getElem_writeLogic, if_neg (fun hr => hvf hr.symm), if_neg hx]

theorem getElem_loadInto_of_lt {v : Vector Byte 16} {f : Nat → Byte} {a : Nat} (h : ¬ r ≤ x) :
    (loadInto v ((List.range' a (x.val + 1)).map f))[r] = v[r] := by
  rw [getElem_loadInto, if_neg fun hlt => h (Nat.le_of_lt_succ hlt)]

/-- IndexAdvance leaves I under LS_INDEX = KEEP (R206). -/
theorem indexAdvance_i_of_keep (h : ¬ s.cfg.lsIndex ≠ .keep) : (indexAdvance x s).i = s.i := by
  rw [indexAdvance, not_not.1 h]

/-- LD Vx, [I] completes whatever it has loaded into V0 to Vx (R205). -/
theorem completed_loadRegs {v : Vector Byte 16} (hv : ∀ r : Reg, ¬ r ≤ x → v[r] = s.v[r]) :
    Completed (.loadRegs x) s (indexAdvance x { s with v := v }) where
  v := hv
  index := indexAdvance_i_of_keep (s := { s with v := v })

/-- Every instruction completes or raises a fault, which discards its writes (R137, R138). -/
theorem exec_cases (h : exec i s = .next t) : Completed i s t ∨ ∃ f, Raises s i f ∧ t = s.setRun (.halted f) := by
  cases i
  case sys nnn =>
    cases hp : s.cfg.sysPolicy with
    | nop => cases (exec_sys_nop nnn hp).symm.trans h; exact .inl {}
    | fault => cases (exec_sys_fault nnn hp).symm.trans h; exact .inr ⟨_, .sys hp, rfl⟩
  case ret =>
    cases hs : s.stack with
    | nil => cases (exec_ret_fault hs).symm.trans h; exact .inr ⟨_, .ret hs, rfl⟩
    | cons a rest => cases (exec_ret_ok hs).symm.trans h; exact .inl { depth := fun hd => Nat.le_of_succ_le (by simpa [State.depth, hs] using hd) }
  case call nnn =>
    by_cases room : s.depth < stackDepth
    · cases (exec_call_ok nnn room).symm.trans h; exact .inl { depth := fun _ => room }
    · have full : stackDepth ≤ s.depth := Nat.le_of_not_lt room
      cases (exec_call_fault nnn full).symm.trans h; exact .inr ⟨_, .call full, rfl⟩
  case jp | jpV0 => cases h; exact .inl {}
  case seImm x nn => cases (exec_seImm s x nn).symm.trans h; exact .inl {}
  case sneImm x nn => cases (exec_sneImm s x nn).symm.trans h; exact .inl {}
  case seReg x y => cases (exec_seReg s x y).symm.trans h; exact .inl {}
  case sneReg x y => cases (exec_sneReg s x y).symm.trans h; exact .inl {}
  case skp x => cases (exec_skp s x).symm.trans h; exact .inl {}
  case sknp x => cases (exec_sknp s x).symm.trans h; exact .inl {}
  case ldImm | addImm | ldReg | ldVxDt => cases h; exact .inl { v := fun _ => getElem_setV_of_ne }
  case rnd x nn => cases h; exact .inl { v := fun _ => getElem_setV_of_ne, draws := fun hi => absurd rfl (hi x nn) }
  case orReg | andReg | xorReg => cases h; exact .inl { v := fun _ => getElem_writeLogic_of_ne }
  case addReg | subReg | shr | subn | shl => cases h; exact .inl { v := fun _ => getElem_writeXF_of_ne }
  case ldDtVx | ldStVx => cases h; exact .inl {}
  case ldI | addI | ldF => cases h; exact .inl { index := fun hi => absurd trivial hi }
  case cls => cases h; exact .inl { fb := fun hi => absurd rfl hi }
  case ldVxK x =>
    cases h
    exact .inl { run := fun hi => absurd rfl (hi x), wait := fun _ hx => by cases hx; rfl, latch := fun hi => absurd rfl (hi x) }
  case drw x y n =>
    by_cases fits : s.i.toNat + n.val ≤ memSize ∨ n.val = 0
    · cases (exec_drw_ok fits).symm.trans h
      exact .inl { v := fun _ => getElem_setV_of_ne, fb := fun _ hi => absurd rfl (hi x y n) }
    · cases (exec_drw_fault (by omega) (by omega)).symm.trans h; exact .inr ⟨_, .drw, rfl⟩
  case ldB x =>
    by_cases fits : s.i.toNat + 3 ≤ memSize
    · cases (exec_ldB_ok fits).symm.trans h
      exact .inl { mem := fun hi => absurd rfl (hi x), wf := fun hm => Memory.wf_writeList hm fits }
    · cases (exec_ldB_fault (by omega)).symm.trans h; exact .inr ⟨_, .ldB, rfl⟩
  case storeRegs x =>
    by_cases fits : s.i.toNat + (x.val + 1) ≤ memSize
    · cases (exec_storeRegs_ok fits).symm.trans h
      exact .inl { index := indexAdvance_i_of_keep, mem := fun _ hi => absurd rfl (hi x),
                   wf := fun hm => Memory.wf_writeList hm (by rwa [length_regsUpTo]) }
    · cases (exec_storeRegs_fault (by omega)).symm.trans h; exact .inr ⟨_, .storeRegs, rfl⟩
  case loadRegs x =>
    by_cases fits : s.i.toNat + (x.val + 1) ≤ memSize
    · rw [exec_loadRegs_ok fits] at h
      injection h with h
      exact .inl (h ▸ completed_loadRegs fun _ => getElem_loadInto_of_lt)
    · cases (exec_loadRegs_fault (by omega)).symm.trans h; exact .inr ⟨_, .loadRegs, rfl⟩

end

end Sys2Proof.Proofs

namespace Sys2Proof.Proofs

open Sys2Proof.Machine Sys2Proof.Claims

/-! ### Run states, faults and frames of the instructions (R136, R138, R270) -/

section

variable {i : Instr} {s t : State} {f : Fault}

/-- An instruction that completes does not halt. -/
theorem Completed.not_halted (hc : Completed i s t) (hrun : s.run = .running) : t.run ≠ .halted f := by
  by_cases hk : ∃ x, i = .ldVxK x
  · obtain ⟨x, hx⟩ := hk
    rw [hc.wait x hx]; exact nofun
  · rw [hc.run (not_exists.1 hk), hrun]; exact nofun

/-- An instruction that ends Halted has raised its fault and done nothing else. -/
theorem exec_halted (hrun : s.run = .running) (h : exec i s = .next t) (hf : t.run = .halted f) :
    Raises s i f ∧ t = s.setRun (.halted f) := by
  rcases exec_cases h with hc | ⟨g, hg, rfl⟩
  · exact absurd hf (hc.not_halted hrun)
  · cases hf; exact ⟨hg, rfl⟩

/-- The zero-extended address of a SYS is its own word (R150). -/
theorem zextAddr_eq_append (nnn : Addr12) : zextAddr nnn = (0x0#4 ++ nnn : Word) := by
  apply BitVec.eq_of_toNat_eq
  rw [toNat_zextAddr, BitVec.toNat_append]
  simp

/-- The first out-of-range address of the accesses at I, I + 1 and so on is 4096 or more, and I or more. -/
theorem max_memSize_bounds (a : Nat) : 4096 ≤ max a memSize ∧ a ≤ max a memSize := ⟨le_max_right _ _, le_max_left _ _⟩

/-- Every instruction answers a next state. -/
theorem exec_next (i : Instr) (s : State) : ∃ t, exec i s = .next t := by
  obtain ⟨r, hr⟩ := exec_commit i s
  rcases commit_cases s r with ⟨t, -, ht⟩ | ⟨f, -, hf⟩
  · exact ⟨t, hr.trans ht⟩
  · exact ⟨_, hr.trans hf⟩

end

/-- Settles O8: a fault is excluded by what the cycle returns, so the instruction has completed. -/
theorem runStateAfterAnInstruction : Obligations.RunStateAfterAnInstruction := by
  intro i s t hrun h hret
  rcases exec_cases h with hc | ⟨f, -, rfl⟩
  · exact ⟨fun hi => (hc.run hi).trans hrun, hc.wait⟩
  · exact absurd rfl (returned_ok_iff.1 hret f)

/-- Settles O12: only a raised fault ends Halted, and it discards the instruction's writes. -/
theorem faultsArePrecise : Obligations.FaultsArePrecise :=
  fun _ _ _ _ hrun h hf => (exec_halted hrun h hf).2

/-- Settles O13: the raised fault, instruction by instruction. -/
theorem faultsComeFromTheirInstructions : Obligations.FaultsComeFromTheirInstructions := by
  intro i s t f hrun h hf
  obtain ⟨hi, hs⟩ := max_memSize_bounds s.i.toNat
  cases (exec_halted hrun h hf).1 with
  | sys hp => exact .inr (.inr (.inr ⟨rfl, hp, _, rfl, congrArg _ (zextAddr_eq_append _)⟩))
  | ret hs => exact .inr (.inr (.inl ⟨rfl, rfl, depth_eq_zero_iff.2 hs, rfl⟩))
  | call full => exact .inr (.inl ⟨rfl, rfl, full, _, rfl⟩)
  | drw => exact .inl ⟨_, rfl, hi, hs, rfl, .inl ⟨_, _, _, rfl⟩⟩
  | ldB => exact .inl ⟨_, rfl, hi, hs, rfl, .inr (.inl ⟨_, rfl⟩)⟩
  | storeRegs => exact .inl ⟨_, rfl, hi, hs, rfl, .inr (.inr (.inl ⟨_, rfl⟩))⟩
  | loadRegs => exact .inl ⟨_, rfl, hi, hs, rfl, .inr (.inr (.inr ⟨_, rfl⟩))⟩

/-- Settles O57: a completed instruction keeps what it does not name, and a raised fault keeps all of it. -/
theorem whatInstructionsLeaveUnchanged : Obligations.WhatInstructionsLeaveUnchanged := by
  intro i s t h
  rcases exec_cases h with hc | ⟨f, -, rfl⟩
  · exact ⟨hc.key, hc.clk, hc.cfg, hc.inputs, exec_keeps_stack h, hc.fb,
      fun hB hR => State.byteAt_congr s t (hc.mem hB hR) hc.cfg, hc.latch, hc.draws⟩
  · exact ⟨rfl, rfl, rfl, rfl, fun _ _ => rfl, fun _ _ => rfl, fun _ _ _ => rfl, fun _ => rfl, fun _ => rfl⟩

/-- Settles O58: a completed instruction writes only the registers it names, and a raised fault writes none. -/
theorem registersChangeOnlyAsNamed : Obligations.RegistersChangeOnlyAsNamed := by
  intro i s t h
  rcases exec_cases h with hc | ⟨f, -, rfl⟩
  · exact ⟨hc.v, hc.index⟩
  · exact ⟨fun _ _ => rfl, fun _ => rfl⟩

/-! ### Every event answers a next state (R130, R274) -/

section

variable (s : State)

theorem runWord_next (w : Word) : ∃ t, runWord w s = .next t := by
  cases h : decodeWord w with
  | error e => exact ⟨_, runWord_error h⟩
  | ok i => rw [runWord_ok h]; exact exec_next i s

theorem cycle_next : ∃ t, cycle s = .next t := by
  cases h : s.run with
  | halted f => exact ⟨s, cycle_halted h⟩
  | waitingForKey x => exact ⟨_, cycle_waiting h⟩
  | running =>
    rw [cycle_running h]
    by_cases hpc : s.pc.toNat + 1 < memSize
    · rw [runCycle_fetched hpc]; exact runWord_next _ _
    · exact ⟨_, runCycle_fetchFault (Nat.le_of_not_lt hpc)⟩

theorem runClock_next (l : List ClockEvent) : ∃ t, runClock l s = .next t := by
  induction l generalizing s with
  | nil => exact ⟨s, rfl⟩
  | cons e l ih =>
    cases e with
    | timerTick => exact ih (timerTick s)
    | cycle =>
      obtain ⟨u, hu⟩ := cycle_next s
      rw [runClock_cycle l hu]; exact ih u

/-- A tick answers the state that its events end in, with the Clock's new accumulators (R284). -/
theorem tickWith_of_runClock {first : Nat → Nat → Bool} {e : Time} {u : State}
    (h : runClock (tickOrder first (cyclesDue s e) (ticksDue s e)) s = .next u) :
    tickWith first e s = .next { u with clk := clkAfter s e } := by
  rw [tickWith, h]

theorem hostEvent_next (ev : HostEvent) : ∃ t, hostEvent ev s = .next t := by
  cases ev with
  | clock e =>
    cases e with
    | cycle => exact cycle_next s
    | timerTick => exact ⟨_, rfl⟩
  | tick e =>
    obtain ⟨u, hu⟩ := runClock_next (s.drawn _) (tickOrder _ _ _)
    exact ⟨_, tickWith_of_runClock _ hu⟩
  | setKey | load | reset => exact ⟨_, rfl⟩

end

/-- Settles O14: a step is a host event or a cycle, and each of them answers a next state. -/
theorem everyStepAnswersANextState : Obligations.EveryStepAnswersANextState := by
  refine ⟨fun s => ?_, exec_next⟩
  cases hin : s.inputs with
  | nil => rw [step_noInput hin]; exact cycle_next s
  | cons ev rest => rw [step_input hin]; exact hostEvent_next _ ev

/-! ### The invariant after construction and after `reset` (R46, R310, R311) -/

/-- No time, no events. -/
@[simp] theorem eventsBy_zero (r : Rate) : eventsBy Time.zero r = 0 := by
  rw [eventsBy, Time.zero, zero_mul]; rfl

theorem inv_construct (cfg : Config) : Inv (State.construct cfg) where
  memory := rfl
  stack := Nat.zero_le _
  latch := fun h => absurd rfl h
  fault := nofun
  clock := ⟨(eventsBy_zero _).symm, (eventsBy_zero _).symm⟩

/-- Settles O59: construction with any configuration, the initial one among them. -/
theorem invariantAtConstruction : Obligations.InvariantAtConstruction := ⟨inv_construct, inv_construct initialConfig⟩

/-! ### Every step keeps the invariant (R35, R42, R70, R270, R283) -/

/-- From `s` to `t` the invariant and the configuration are kept. -/
def Keeps (s t : State) : Prop := Inv t ∧ t.cfg = s.cfg

section

variable {s t u : State} {i : Instr} {f : Fault} {x : Reg}

theorem Keeps.trans (h₁ : Keeps s t) (h₂ : Inv t → Keeps t u) : Keeps s u :=
  ⟨(h₂ h₁.1).1, (h₂ h₁.1).2.trans h₁.2⟩

/-- While the CPU runs no key is latched. -/
theorem latch_none_of_inv (hs : Inv s) (hrun : s.run = .running) : s.latch = none := by
  by_contra hl
  obtain ⟨x, hx⟩ := hs.latch hl
  cases hrun.symm.trans hx

/-- A running CPU that takes a fault keeps the invariant, where a recorded address is out of range. -/
theorem inv_setRun_halted (hs : Inv s) (hrun : s.run = .running) (hf : ∀ a, f = .addressFault a → memSize ≤ a) :
    Inv (s.setRun (.halted f)) where
  memory := hs.memory
  stack := hs.stack
  latch := fun hl => absurd (latch_none_of_inv hs hrun) hl
  fault := fun a ha => hf a (RunState.halted.inj ha)
  clock := hs.clock

/-- An address fault that an instruction raises is out of range (R270). -/
theorem Raises.le_of_addressFault (h : Raises s i f) (a : Nat) (ha : f = .addressFault a) : memSize ≤ a := by
  cases h <;> cases ha <;> exact le_max_right _ _

/-- An instruction that completes keeps the invariant. -/
theorem Completed.keeps (hc : Completed i s t) (hs : Inv s) (hrun : s.run = .running) : Keeps s t where
  left :=
    { memory := by rw [hc.cfg]; exact hc.wf hs.memory
      stack := hc.depth hs.stack
      latch := fun hl => by
        by_contra hw
        have hi : ∀ x, i ≠ .ldVxK x := fun x hx => hw ⟨x, hc.wait x hx⟩
        exact hl ((hc.latch hi).trans (latch_none_of_inv hs hrun))
      fault := fun a ha => absurd ha (hc.not_halted hrun)
      clock := by rw [ClockAgrees, hc.clk, hc.cfg]; exact hs.clock }
  right := hc.cfg

theorem exec_keeps (hs : Inv s) (hrun : s.run = .running) (h : exec i s = .next t) : Keeps s t := by
  rcases exec_cases h with hc | ⟨f, hf, rfl⟩
  · exact hc.keeps hs hrun
  · exact ⟨inv_setRun_halted hs hrun hf.le_of_addressFault, rfl⟩

theorem runWord_keeps {w : Word} (hs : Inv s) (hrun : s.run = .running) (h : runWord w s = .next t) : Keeps s t := by
  cases hw : decodeWord w with
  | error e =>
    cases (runWord_error hw).symm.trans h
    exact ⟨inv_setRun_halted hs hrun nofun, rfl⟩
  | ok i => exact exec_keeps hs hrun ((runWord_ok hw).symm.trans h)

/-- No part of the invariant speaks of pc. -/
theorem inv_advance (hs : Inv s) : Inv s.advance := ⟨hs.memory, hs.stack, hs.latch, hs.fault, hs.clock⟩

/-- The end of a key wait clears the latch, so the invariant holds in Running again (R253). -/
theorem keyWaitComplete_keeps (hs : Inv s) (x : Reg) : Keeps s (keyWaitComplete x s) := by
  rcases keyWaitComplete_cases x s with h | ⟨k, d, h⟩ <;> rw [h]
  · exact ⟨hs, rfl⟩
  · exact ⟨⟨hs.memory, hs.stack, fun hl => absurd rfl hl, nofun, hs.clock⟩, rfl⟩

theorem cycle_keeps (hs : Inv s) (h : cycle s = .next t) : Keeps s t := by
  cases hrun : s.run with
  | halted f => cases (cycle_halted hrun).symm.trans h; exact ⟨hs, rfl⟩
  | waitingForKey x => cases (cycle_waiting hrun).symm.trans h; exact keyWaitComplete_keeps hs x
  | running =>
    rw [cycle_running hrun] at h
    by_cases hpc : s.pc.toNat + 1 < memSize
    · exact runWord_keeps (s := s.advance) (inv_advance hs) hrun ((runCycle_fetched hpc).symm.trans h)
    · cases (runCycle_fetchFault (Nat.le_of_not_lt hpc)).symm.trans h
      exact ⟨inv_setRun_halted hs hrun fun a ha => by cases ha; exact le_max_right _ _, rfl⟩

theorem timerTick_keeps (hs : Inv s) : Keeps s (timerTick s) := ⟨⟨hs.memory, hs.stack, hs.latch, hs.fault, hs.clock⟩, rfl⟩

theorem runClock_keeps {l : List ClockEvent} (hs : Inv s) (h : runClock l s = .next t) : Keeps s t := by
  induction l generalizing s with
  | nil => cases h; exact ⟨hs, rfl⟩
  | cons e l ih =>
    cases e with
    | timerTick => exact (timerTick_keeps hs).trans fun hu => ih hu h
    | cycle =>
      obtain ⟨u, hu⟩ := cycle_next s
      exact (cycle_keeps hs hu).trans fun hiu => ih hiu ((runClock_cycle l hu).symm.trans h)

/-- Counts that agree with the elapsed time, brought up to date by a tick, agree with the new one (R284). -/
theorem cycles_add_cyclesDue (hc : ClockAgrees s) (e : Time) :
    s.clk.cycles + cyclesDue s e = eventsBy (s.clk.elapsed.add e) s.cfg.cycleRate := by
  rw [cyclesDue, hc.1]; exact Nat.add_sub_cancel' (eventsBy_mono _ _ _)

theorem ticks_add_ticksDue (hc : ClockAgrees s) (e : Time) :
    s.clk.ticks + ticksDue s e = eventsBy (s.clk.elapsed.add e) Rate.timer := by
  rw [ticksDue, hc.2]; exact Nat.add_sub_cancel' (eventsBy_mono _ _ _)

theorem tickWith_keeps {first : Nat → Nat → Bool} {e : Time} (hs : Inv s) (h : tickWith first e s = .next t) : Keeps s t := by
  obtain ⟨u, hu⟩ := runClock_next s (tickOrder first (cyclesDue s e) (ticksDue s e))
  cases (tickWith_of_runClock s hu).symm.trans h
  obtain ⟨hiu, hcfg⟩ := runClock_keeps hs hu
  refine ⟨⟨hiu.memory, hiu.stack, hiu.latch, hiu.fault, ?cycles, ?ticks⟩, hcfg⟩
  case cycles => exact (cycles_add_cyclesDue hs.clock e).trans (by rw [← hcfg]; rfl)
  case ticks => exact ticks_add_ticksDue hs.clock e

theorem tick_keeps {e : Time} (hs : Inv s) (h : tick e s = .next t) : Keeps s t :=
  tickWith_keeps (s := s.drawn _) ⟨hs.memory, hs.stack, hs.latch, hs.fault, hs.clock⟩ h

/-- Only a press from unpressed, in a wait with no key latched, changes the latch (R288). -/
theorem nextLatch_other {k : Key} {p : Bool} (h : ¬ (p = true ∧ s.key[k] = false ∧ (∃ x, s.run = .waitingForKey x) ∧ s.latch = none)) :
    nextLatch s k p = s.latch := by
  rw [nextLatch]
  split
  case h_1 x hrun hl =>
    have no_press : ¬ (p && !isPressed s k) = true := fun hp => by
      simp only [isPressed, Bool.and_eq_true, Bool.not_eq_true'] at hp
      exact h ⟨hp.1, hp.2, ⟨x, hrun⟩, hl⟩
    rw [if_neg no_press, hl]
  case h_2 => rfl

theorem setKey_keeps (hs : Inv s) (k : Key) (p : Bool) : Keeps s (setKey k p s) := by
  refine ⟨⟨hs.memory, hs.stack, fun hl => ?latch, hs.fault, hs.clock⟩, rfl⟩
  case latch =>
    by_contra hw
    have still : nextLatch s k p = s.latch := nextLatch_other fun ⟨_, _, waits, _⟩ => hw waits
    exact hw (hs.latch (still ▸ hl))

/-- A ROM that fits keeps the canonical form of memory, and one that does not is not written (R313, R314). -/
theorem loadRom_keeps (hs : Inv s) (rom : List Byte) : Keeps s (loadRom rom s) := by
  by_cases h : rom.length ≤ maxRom
  · rw [loadRom, loadResult_ok h]
    have fits : programBase + rom.length ≤ memSize := Nat.add_le_add_left h programBase
    exact ⟨⟨Memory.wf_writeList hs.memory fits, hs.stack, hs.latch, hs.fault, hs.clock⟩, rfl⟩
  · rw [loadRom, loadResult_tooLarge (Nat.lt_of_not_le h)]
    exact ⟨hs, rfl⟩

/-- `reset` keeps memory and its canonical form, and sets everything else that the invariant speaks of to its value after construction (R311). -/
theorem resetEvent_keeps (hs : Inv s) : Keeps s (resetEvent s) := by
  have hc : Inv (State.construct s.cfg) := inv_construct s.cfg
  exact ⟨⟨hs.memory, hc.stack, hc.latch, hc.fault, hc.clock⟩, rfl⟩

theorem hostEvent_keeps {ev : HostEvent} (hs : Inv s) (h : hostEvent ev s = .next t) : Keeps s t := by
  cases ev with
  | clock e =>
    cases e with
    | cycle => exact cycle_keeps hs h
    | timerTick => cases h; exact timerTick_keeps hs
  | tick e => exact tick_keeps hs h
  | setKey k p => cases h; exact setKey_keeps hs k p
  | load rom => cases h; exact loadRom_keeps hs rom
  | reset => cases h; exact resetEvent_keeps hs

end

/-- Settles O60: a step is a cycle, or the first pending host event in the state without it, and both keep the invariant. -/
theorem everyStepKeepsTheInvariant : Obligations.EveryStepKeepsTheInvariant := by
  intro s t hs h
  cases hin : s.inputs with
  | nil => exact cycle_keeps hs ((step_noInput hin).symm.trans h)
  | cons ev rest =>
    have hrest : Inv { s with inputs := rest } := ⟨hs.memory, hs.stack, hs.latch, hs.fault, hs.clock⟩
    exact hostEvent_keeps (s := { s with inputs := rest }) hrest ((step_input hin).symm.trans h)

end Sys2Proof.Proofs

namespace Sys2Proof.Proofs

open Sys2Proof.Machine Sys2Proof.Claims

/-! ### Results and flags as the statements write them (R170, R174 to R183) -/

section

variable {s : State} {x y z : Reg} {a b : Byte} {c : Bool}

/-- `WriteXF` in numbers, for both values of VF_ORDER (R170). -/
theorem afterResultAndFlag_writeXF {result flag : Nat} (hb : b.toNat = result) (hc : (flagByte c).toNat = flag) :
    AfterResultAndFlag s (writeXF s x b c) x result flag := by
  refine ⟨writeXF_eq s x b c, fun r => ?_⟩
  rw [getElem_writeXF, apply_ite BitVec.toNat, apply_ite BitVec.toNat, apply_ite BitVec.toNat, hb, hc]

/-- The result of OR, AND and XOR, for both values of LOGIC_VF and VF_ORDER (R174 to R176). -/
theorem afterLogic_writeLogic : AfterLogic s (writeLogic s x b) x b :=
  ⟨writeLogic_eq s x b, fun r => getElem_writeLogic s x r b⟩

theorem toNat_flagByte : (flagByte c).toNat = c.toNat := by cases c <;> rfl

/-- A flag that says whether a relation holds is 1 or 0 (R183). -/
theorem toNat_flagByte_decide {p : Prop} [Decidable p] : (flagByte (decide p)).toNat = if p then 1 else 0 := by
  rw [flagByte, apply_ite BitVec.toNat]; simp

/-- The byte difference is the difference of the values modulo 256 (R178, R180). -/
theorem toNat_byte_sub : (a - b).toNat = (256 + a.toNat - b.toNat) % 256 := by
  have := b.isLt
  rw [BitVec.toNat_sub]; congr 1; omega

/-- SHR halves its source (R179). -/
theorem toNat_shr_one : (a >>> 1).toNat = a.toNat / 2 := by simp [BitVec.toNat_ushiftRight, Nat.shiftRight_eq_div_pow]

/-- SHL doubles its source modulo 256 (R181). -/
theorem toNat_shl_one : (a <<< 1).toNat = 2 * a.toNat % 256 := by simp [BitVec.toNat_shiftLeft, Nat.shiftLeft_eq, Nat.mul_comm]

/-- Bit 0 as a number (R179). -/
theorem toNat_shrOut : (flagByte (shrOut a)).toNat = a.toNat % 2 := by
  rw [toNat_flagByte, shrOut, BitVec.getLsbD, Nat.toNat_testBit]; simp

/-- Bit 7 as a number (R181). -/
theorem toNat_shlOut : (flagByte (shlOut a)).toNat = a.toNat / 128 := by
  have := a.isLt
  rw [toNat_flagByte, shlOut, BitVec.getLsbD, Nat.toNat_testBit]; omega

/-- The source of a shift is the register that SHIFT_SRC selects (R179, R181, D5). -/
theorem shiftSource_eq (hvy : s.cfg.shiftSrc = .vy → z = y) (hvx : s.cfg.shiftSrc = .vx → z = x) : shiftSource s x y = s.v[z] := by
  cases h : s.cfg.shiftSrc with
  | vy => simp only [shiftSource, h, hvy h, State.getV_eq]
  | vx => simp only [shiftSource, h, hvx h, State.getV_eq]

end

/-- Settles O27: each operation writes one byte, whose bits are those of its operands combined. -/
theorem logicOperations : Obligations.LogicOperations := by
  intro x y s
  refine ⟨decodeWord_encode (i := .orReg x y) rfl, decodeWord_encode (i := .andReg x y) rfl,
    decodeWord_encode (i := .xorReg x y) rfl, ⟨_, _, exec_orReg s x y, afterLogic_writeLogic, fun k _ => ?or⟩,
    ⟨_, _, exec_andReg s x y, afterLogic_writeLogic, fun k _ => ?and⟩,
    ⟨_, _, exec_xorReg s x y, afterLogic_writeLogic, fun k _ => ?xor⟩⟩
  case or => exact BitVec.getLsbD_or
  case and => exact BitVec.getLsbD_and
  case xor => exact BitVec.getLsbD_xor

/-- Settles O28: the sum is the byte addition, and the flag its carry. -/
theorem addSetsTheCarry : Obligations.AddSetsTheCarry := by
  intro x y s
  exact ⟨decodeWord_encode (i := .addReg x y) rfl, _, exec_addReg s x y,
    afterResultAndFlag_writeXF (BitVec.toNat_add _ _) toNat_flagByte_decide⟩

/-- Settles O29: both differences are byte subtractions, the operands in either order, and the flag says that no borrow occurs. -/
theorem subtractionsSetNoBorrow : Obligations.SubtractionsSetNoBorrow := by
  intro x y s
  exact ⟨decodeWord_encode (i := .subReg x y) rfl, decodeWord_encode (i := .subn x y) rfl,
    ⟨_, exec_subReg s x y, afterResultAndFlag_writeXF toNat_byte_sub toNat_flagByte_decide⟩,
    ⟨_, exec_subn s x y, afterResultAndFlag_writeXF toNat_byte_sub toNat_flagByte_decide⟩⟩

/-- Settles O30: result and flag of each shift, of the source that SHIFT_SRC selects. -/
theorem shiftsMoveABitIntoVF : Obligations.ShiftsMoveABitIntoVF := by
  intro x y z s hvy hvx
  rw [← shiftSource_eq hvy hvx]
  exact ⟨decodeWord_encode (i := .shr x y) rfl, decodeWord_encode (i := .shl x y) rfl,
    ⟨_, exec_shr s x y, afterResultAndFlag_writeXF toNat_shr_one toNat_shrOut⟩,
    ⟨_, exec_shl s x y, afterResultAndFlag_writeXF toNat_shl_one toNat_shlOut⟩⟩

/-- Settles O31: the written register holds the masked draw, so a bit that the mask clears is 0. -/
theorem rndMasksAFreeDraw : Obligations.RndMasksAFreeDraw := by
  intro x nn s
  have written : (s.setV x (Config.freeByte s.draws &&& nn)).v[x] = Config.freeByte s.draws &&& nn := by
    rw [State.getElem_setV, if_pos rfl]
  refine ⟨decodeWord_encode (i := .rnd x nn) rfl, _, exec_rnd s x nn, written, fun k hk => ?masked, fun r => getElem_setV_of_ne, rfl⟩
  case masked =>
    rw [State.drawn_v, written, BitVec.getLsbD_and, hk, Bool.and_false]

end Sys2Proof.Proofs

namespace Sys2Proof.Proofs

open Sys2Proof.Machine Sys2Proof.Claims

/-! ### The fetch (R73, R87, R133) -/

/-- The word of two bytes as a number: the first byte is the high one (R73). -/
theorem toNat_wordOfBytes (hi lo : Byte) : (wordOfBytes hi lo).toNat = 256 * hi.toNat + lo.toNat := by
  rw [wordOfBytes, BitVec.toNat_append, Nat.shiftLeft_eq, ← Nat.mul_comm (2 ^ 8), ← Nat.two_pow_add_eq_or_of_lt lo.isLt]

/-- Settles O16: a fetch in range answers the word of its two bytes, and one out of range the fault of its first address that is. -/
theorem fetchIsBigEndian : Obligations.FetchIsBigEndian := by
  intro s a
  refine ⟨fun inside => ⟨_, fetch16_ok (Nat.succ_lt_succ (Nat.lt_succ_of_le inside)), toNat_wordOfBytes _ _⟩, fun last => ?last, fun above => ?above⟩
  case last => subst last; exact fetch16_error le_rfl
  case above => rw [fetch16_error (Nat.le_succ_of_le above), max_eq_left above]

/-- Settles O6: the fetch fault is taken in the state before the advance. -/
theorem fetchOutOfRangeHalts : Obligations.FetchOutOfRangeHalts := by
  intro s hin hrun hpc
  have first : max s.pc.toNat 4096 = if s.pc.toNat = 4095 then 4096 else s.pc.toNat := by split <;> omega
  rw [step_noInput hin, cycle_running hrun, runCycle_fetchFault hpc, first]
  rfl

/-! ### Storing and loading registers (R204 to R206) -/

section

variable {s t : State} {x r : Reg}

/-- IndexAdvance is the advance of I that the statements write (R206). -/
theorem indexAdvance_eq_indexAfter (x : Reg) (s : State) : indexAdvance x s = { s with i := indexAfter s.cfg x s.i } := by
  cases h : s.cfg.lsIndex <;> simp only [indexAdvance, indexAfter, h]

/-- The state after the registers V0 to Vx are stored at I, before I advances (R204). -/
def storedRegs (s : State) (x : Reg) : State := s.setMem (s.mem.writeList s.cfg.fontBase s.i.toNat (regsUpTo s x))

/-- The addresses I to I+x exist. -/
theorem fits_of_last_lt (h : s.i.toNat + x.val < 4096) : s.i.toNat + (x.val + 1) ≤ memSize := h

theorem exec_storeRegs_storedRegs (h : s.i.toNat + x.val < 4096) :
    exec (.storeRegs x) s = .next { storedRegs s x with i := indexAfter s.cfg x s.i } := by
  rw [exec_storeRegs_ok (fits_of_last_lt h), indexAdvance_eq_indexAfter]; rfl

/-- Memory after the store: register r at I + r, and every other address as before. -/
theorem byteAt_storedRegs (hm : s.mem.wf s.cfg.fontBase = true) (h : s.i.toNat + x.val < 4096) (b : Nat) :
    (storedRegs s x).byteAt b = if s.i.toNat ≤ b ∧ b < s.i.toNat + (x.val + 1) then (regsUpTo s x).getD (b - s.i.toNat) 0 else s.byteAt b := by
  rw [storedRegs, byteAt_writeList hm (by rw [length_regsUpTo]; exact h), length_regsUpTo]

theorem byteAt_storedRegs_reg (hm : s.mem.wf s.cfg.fontBase = true) (h : s.i.toNat + x.val < 4096) (hr : r ≤ x) :
    (storedRegs s x).byteAt (s.i.toNat + r.val) = s.v[r] := by
  have hr' : r.val ≤ x.val := hr
  rw [byteAt_storedRegs hm h, if_pos (by omega), Nat.add_sub_cancel_left, regsUpTo_getD s hr]

theorem byteAt_storedRegs_other (hm : s.mem.wf s.cfg.fontBase = true) (h : s.i.toNat + x.val < 4096) {a : Nat}
    (ha : a < s.i.toNat ∨ s.i.toNat + x.val < a) : (storedRegs s x).byteAt a = s.byteAt a := by
  rw [byteAt_storedRegs hm h, if_neg (by omega)]

/-- The register file after V0 to Vx are loaded from I (R205). -/
def loadedRegs (s : State) (x : Reg) : Vector Byte 16 := loadInto s.v ((List.range' s.i.toNat (x.val + 1)).map s.byteAt)

theorem exec_loadRegs_loadedRegs (h : s.i.toNat + x.val < 4096) :
    exec (.loadRegs x) s = .next { s with v := loadedRegs s x, i := indexAfter s.cfg x s.i } := by
  rw [exec_loadRegs_ok (fits_of_last_lt h), indexAdvance_eq_indexAfter]; rfl

/-- Register r holds the byte at I + r, and a register above x what it held. -/
theorem getElem_loadedRegs : (loadedRegs s x)[r] = if r ≤ x then s.byteAt (s.i.toNat + r.val) else s.v[r] := by
  rw [loadedRegs, getElem_loadInto]
  exact if_congr Nat.lt_succ_iff rfl rfl

/-- A load after the store, from the same I, reads back every register that the store wrote, and above x the registers are those of `v`. -/
theorem loadedRegs_storedRegs (hm : s.mem.wf s.cfg.fontBase = true) (inside : s.i.toNat + x.val < 4096) {v : Vector Byte 16}
    (hv : ∀ r : Reg, x < r → v[r] = s.v[r]) : loadedRegs { storedRegs s x with v := v } x = s.v := by
  apply Vector.ext
  intro r hr
  refine (getElem_loadedRegs (r := ⟨r, hr⟩)).trans ?_
  split
  case isTrue hle => exact byteAt_storedRegs_reg hm inside hle
  case isFalse hlt => exact hv ⟨r, hr⟩ (lt_of_not_ge hlt)

end

/-- Settles O36: the stored registers, or the fault of the first address out of range. -/
theorem storeRegsStoresUpToVx : Obligations.StoreRegsStoresUpToVx := by
  intro x s hm
  exact ⟨decodeWord_encode (i := .storeRegs x) rfl,
    fun inside => ⟨_, exec_storeRegs_storedRegs inside, rfl, fun _ => byteAt_storedRegs_reg hm inside, fun _ => byteAt_storedRegs_other hm inside⟩,
    fun outside => exec_storeRegs_fault (Nat.lt_succ_of_le (Nat.le_of_not_lt outside))⟩

/-- Settles O37: the loaded registers, or the fault of the first address out of range. -/
theorem loadRegsLoadsUpToVx : Obligations.LoadRegsLoadsUpToVx := by
  intro x s
  exact ⟨decodeWord_encode (i := .loadRegs x) rfl,
    fun inside => ⟨_, exec_loadRegs_loadedRegs inside, rfl, fun _ => getElem_loadedRegs⟩,
    fun outside => exec_loadRegs_fault (Nat.lt_succ_of_le (Nat.le_of_not_lt outside))⟩

/-- Settles O38: the load restores the register file that the store read, and I advances as it did after the store. -/
theorem storeThenLoadRestoresRegisters : Obligations.StoreThenLoadRestoresRegisters := by
  intro x s t v hm inside hstore hv
  cases (exec_storeRegs_storedRegs inside).symm.trans hstore
  refine (exec_loadRegs_loadedRegs (s := { storedRegs s x with v := v }) inside).trans ?_
  rw [loadedRegs_storedRegs hm inside hv]
  rfl

/-- Settles O17: after the store the bytes at pc and pc + 1 are V0 and V1, and the next step fetches them. -/
theorem fetchSeesTheStoreBeforeIt : Obligations.FetchSeesTheStoreBeforeIt := by
  intro s t hm hrun hin hpc hi hstore
  have inside : s.i.toNat + (1 : Reg).val < 4096 := by rw [hi]; exact Nat.lt_succ_of_le (Nat.succ_le_succ hpc)
  cases (exec_storeRegs_storedRegs inside).symm.trans hstore
  have first : (storedRegs s 1).byteAt s.pc.toNat = s.v[(0 : Fin 16)] := by
    rw [← hi]; exact byteAt_storedRegs_reg (r := 0) hm inside (by decide)
  have second : (storedRegs s 1).byteAt (s.pc.toNat + 1) = s.v[(1 : Fin 16)] := by
    rw [← hi]; exact byteAt_storedRegs_reg (r := 1) hm inside le_rfl
  rw [← first, ← second]
  exact step_fetched (s := { storedRegs s 1 with i := indexAfter s.cfg 1 s.i }) hin hrun (Nat.succ_lt_succ (Nat.lt_succ_of_le hpc))

/-! ### I as a number, and the font (R81, R201, R202) -/

/-- Settles O33: I grows by the value of Vx, modulo 2^16. -/
theorem addIWrapsAtSixteenBits : Obligations.AddIWrapsAtSixteenBits := by
  intro x s
  refine ⟨decodeWord_encode (i := .addI x) rfl, _, exec_addI s x, ?sum, rfl⟩
  case sum => rw [State.setI_i, BitVec.toNat_add, toNat_zextByte]

section

variable {s : State}

/-- In a memory never written the font bytes stand from FONT_BASE on (R81). -/
theorem byteAt_font (hm : s.mem = []) (k : Nat) : s.byteAt (s.cfg.fontBase.val + k) = fontBytes.getD k 0 := by
  rw [State.byteAt, hm, Memory.read, Memory.unlisted, if_pos (Nat.le_add_right _ _), Nat.add_sub_cancel_left]

/-- In a memory never written every byte outside the font is 0 (R46). -/
theorem byteAt_outside_font (hm : s.mem = []) {a : Nat} (ha : a < s.cfg.fontBase.val ∨ s.cfg.fontBase.val + 80 ≤ a) : s.byteAt a = 0 := by
  rcases ha with below | above
  · rw [State.byteAt, hm, Memory.read, Memory.unlisted, if_neg (Nat.not_le.2 below)]
  · obtain ⟨k, rfl⟩ := Nat.exists_eq_add_of_le above
    have past : fontBytes.length ≤ 80 + k := Nat.le_add_right 80 k
    rw [Nat.add_assoc, byteAt_font hm, List.getD_eq_getElem?_getD, List.getElem?_eq_none past, Option.getD_none]

end

/-- Settles O34: I points at the glyph of the low nibble, whose five bytes are those of the font. -/
theorem ldFPointsAtTheGlyph : Obligations.LdFPointsAtTheGlyph := by
  intro x s
  have addr : (glyphAddr s.cfg (lowNibble s.v[x])).toNat = s.cfg.fontBase.val + 5 * (s.v[x].toNat % 16) := by
    rw [toNat_glyphAddr, lowNibble_val]
  refine ⟨decodeWord_encode (i := .ldF x) rfl, _, exec_ldF s x, ?address, rfl, fun hm k _ => ?glyph⟩
  case address => rw [State.setI_i, addr]
  case glyph =>
    rw [State.setI_i, addr, Nat.add_assoc, State.byteAt_congr s (s.setI (glyphAddr s.cfg (lowNibble s.v[x]))) rfl rfl, byteAt_font hm]

/-! ### `load` (R313) -/

/-- Settles O55: a ROM that fits is written from 0x200 on. -/
theorem loadPutsTheRomAt0x200 : Obligations.LoadPutsTheRomAt0x200 := by
  intro rom s hm hlen
  have fits : programBase + rom.length ≤ memSize := Nat.add_le_add_left hlen programBase
  have written : loadResult rom s = .ok (s.setMem (s.mem.writeList s.cfg.fontBase programBase rom)) := loadResult_ok hlen
  refine ⟨_, written, ?event, afterBytes_writeList hm fits⟩
  case event => rw [hostEvent, loadRom, written]

/-! ### CALL, RET, SYS and JP V0 (R150 to R158, R162) -/

/-- Settles O19: the RET pops the address that the CALL pushed, the pc of the state before it. -/
theorem callThenRetReturns : Obligations.CallThenRetReturns := by
  intro s nnn
  exact ⟨fun room => ⟨_, exec_call_ok nnn room, rfl, exec_ret_ok rfl⟩, fun full => exec_call_fault nnn full.ge,
    fun empty => exec_ret_fault (depth_eq_zero_iff.1 empty)⟩

/-- Settles O20: 0NNN decodes to SYS outside CLS and RET, and its fault records the word itself. -/
theorem sysFollowsItsPolicy : Obligations.SysFollowsItsPolicy := by
  intro nnn s hcls hret
  have legal : (Instr.sys nnn).wellFormed = true := by simpa [Instr.wellFormed] using And.intro hcls hret
  refine ⟨decodeWord_encode (i := .sys nnn) legal, exec_sys_nop nnn, fun hp => ?fault⟩
  case fault =>
    rw [exec_sys_fault nnn hp, zextAddr_eq_append]; rfl

/-- Under JUMP_REG = VX the register is that of the address's top nibble (R158, D9). -/
theorem jumpX_val (nnn : Addr12) : (jumpX nnn).val = nnn.toNat / 256 := by
  have := nnn.isLt
  show (nnn.extractLsb' 8 4).toNat = _
  rw [BitVec.extractLsb'_toNat, Nat.shiftRight_eq_div_pow]; omega

/-- The sum of a 12-bit address and a byte does not wrap (R158). -/
theorem toNat_zextAddr_add_zextByte (nnn : Addr12) (b : Byte) : (zextAddr nnn + zextByte b).toNat = nnn.toNat + b.toNat := by
  have := nnn.isLt
  have := b.isLt
  rw [BitVec.toNat_add, toNat_zextAddr, toNat_zextByte]; omega

/-- Settles O25: the jump's target is the exact sum, with the register that JUMP_REG selects. -/
theorem jpV0AddsARegister : Obligations.JpV0AddsARegister := by
  intro nnn s
  refine ⟨decodeWord_encode (i := .jpV0 nnn) rfl, _, exec_jpV0 s nnn, rfl, fun hv0 => ?v0, fun hvx x hx => ?vx⟩
  case v0 => simp only [State.setPc_pc, toNat_zextAddr_add_zextByte, jumpReg, hv0]
  case vx =>
    have register : jumpX nnn = x := Fin.ext ((jumpX_val nnn).trans hx.symm)
    simp only [State.setPc_pc, toNat_zextAddr_add_zextByte, jumpReg, hvx, register]

end Sys2Proof.Proofs

namespace Sys2Proof.Proofs

open Sys2Proof.Machine Sys2Proof.Claims

/-! ### Any number of timer ticks (R37, R282) -/

/-- A timer after `n` ticks holds its value less `n`, or 0. -/
theorem toNat_countDown_iterate (n : Nat) (b : Byte) : (countDown^[n] b).toNat = b.toNat - n := by
  induction n with
  | zero => rfl
  | succ n ih => rw [Function.iterate_succ_apply', toNat_countDown, ih, Nat.sub_sub]

/-- Timer ticks run both timers and change nothing else. -/
theorem timerTick_iterate (n : Nat) (s : State) : timerTick^[n] s = { s with dt := countDown^[n] s.dt, st := countDown^[n] s.st } := by
  induction n with
  | zero => rfl
  | succ n ih => simp only [Function.iterate_succ_apply', ih, timerTick]

/-- Settles O41: each timer counts down by itself. -/
theorem timersCountToZero : Obligations.TimersCountToZero := by
  intro n s
  rw [timerTick_iterate]
  exact ⟨toNat_countDown_iterate n s.dt, toNat_countDown_iterate n s.st, rfl⟩

/-! ### The orders of a tick's events (R284, R285) -/

/-- Where a cycle is due and is chosen, or alone is left, it goes next. -/
theorem interleave_cycle {first : Nat → Nat → Bool} {i j : Nat} (h : first i j = true) (fuel nc nt : Nat) :
    interleave first (fuel + 1) (nc + 1) nt i j = .cycle :: interleave first fuel nc nt (i + 1) j := by
  cases nt with
  | zero => rfl
  | succ nt => rw [interleave, if_pos h]

/-- Where a timer tick is due and no cycle is chosen, it goes next. -/
theorem interleave_timerTick {first : Nat → Nat → Bool} {i j : Nat} (h : first i j = false) (fuel nc nt : Nat) :
    interleave first (fuel + 1) nc (nt + 1) i j = .timerTick :: interleave first fuel nc nt i (j + 1) := by
  cases nc with
  | zero => rfl
  | succ nc => rw [interleave, if_neg (by rw [h]; decide)]

/-- An interleaving has the events it was made from, and no others. -/
theorem count_interleave (first : Nat → Nat → Bool) {fuel nc nt : Nat} (i j : Nat) (h : fuel = nc + nt) :
    (interleave first fuel nc nt i j).count .cycle = nc ∧ (interleave first fuel nc nt i j).count .timerTick = nt := by
  induction fuel generalizing nc nt i j with
  | zero =>
    obtain ⟨rfl, rfl⟩ : nc = 0 ∧ nt = 0 := by omega
    exact ⟨rfl, rfl⟩
  | succ fuel ih =>
    rcases nc with _ | nc <;> rcases nt with _ | nt
    · exact ⟨rfl, rfl⟩
    · obtain ⟨hc, ht⟩ := ih (nc := 0) (nt := nt) i (j + 1) (by omega)
      simp [interleave, hc, ht]
    · obtain ⟨hc, ht⟩ := ih (nc := nc) (nt := 0) (i + 1) j (by omega)
      simp [interleave, hc, ht]
    · cases hf : first i j with
      | true =>
        obtain ⟨hc, ht⟩ := ih (nc := nc) (nt := nt + 1) (i + 1) j (by omega)
        simp [interleave_cycle hf, hc, ht]
      | false =>
        obtain ⟨hc, ht⟩ := ih (nc := nc + 1) (nt := nt) i (j + 1) (by omega)
        simp [interleave_timerTick hf, hc, ht]

theorem count_tickOrder (first : Nat → Nat → Bool) (nc nt : Nat) :
    (tickOrder first nc nt).count .cycle = nc ∧ (tickOrder first nc nt).count .timerTick = nt :=
  count_interleave first 0 0 rfl

/-- The choice function that follows a list: after `i` cycles and `j` timer ticks, the event at position `i + j`. -/
def follow (l : List ClockEvent) (i j : Nat) : Bool := l[i + j]? == some .cycle

/-- The order that follows a list is that list, from every position of it on. -/
theorem interleave_follow (l rest : List ClockEvent) {i j : Nat} (h : l.drop (i + j) = rest) :
    interleave (follow l) (rest.count .cycle + rest.count .timerTick) (rest.count .cycle) (rest.count .timerTick) i j = rest := by
  induction rest generalizing i j with
  | nil => rfl
  | cons e rest ih =>
    have here : l[i + j]? = some e := by rw [← List.head?_drop, h]; rfl
    have next : l.drop (i + j + 1) = rest := by rw [← List.tail_drop, h]; rfl
    cases e with
    | cycle =>
      have hrest := ih (i := i + 1) (j := j) (by rw [← next]; congr 1; omega)
      have chosen : follow l i j = true := by rw [follow, here]; rfl
      rw [List.count_cons_self, List.count_cons_of_ne (by decide), Nat.add_right_comm, interleave_cycle chosen, hrest]
    | timerTick =>
      have hrest := ih (i := i) (j := j + 1) (by rw [← next]; congr 1)
      have chosen : follow l i j = false := by rw [follow, here]; rfl
      rw [List.count_cons_self, List.count_cons_of_ne (by decide), ← Nat.add_assoc, interleave_timerTick chosen, hrest]

/-- Settles O51: an order has the events due, and each list is the order that follows it. -/
theorem tickOrdersAreTheInterleavings : Obligations.TickOrdersAreTheInterleavings :=
  ⟨count_tickOrder, fun l => ⟨follow l, interleave_follow l l rfl⟩⟩

/-! ### The tick (R283 to R285) -/

section

variable {s : State}

/-- The counts after a tick are the exact floors of the new elapsed time (R284). -/
theorem cycles_after_tick (hc : ClockAgrees s) (e : Time) :
    ((s.clk.cycles + cyclesDue s e : Nat) : Int) = ((s.clk.elapsed.secs + e.secs) * s.cfg.cycleRate.hz).floor := by
  rw [cycles_add_cyclesDue hc]; exact eventsBy_eq_floor _ _

theorem ticks_after_tick (hc : ClockAgrees s) (e : Time) :
    ((s.clk.ticks + ticksDue s e : Nat) : Int) = ((s.clk.elapsed.secs + e.secs) * 60).floor := by
  rw [ticks_add_ticksDue hc]; exact eventsBy_eq_floor _ _

/-- The host's tick is a tick in a drawn order, which spends one draw for each event due (log 9). -/
theorem tick_of_runClock {e : Time} {u : State}
    (h : runClock (tickOrder (fun i j => Config.freeCycleFirst (s.draws + i + j)) (cyclesDue s e) (ticksDue s e))
      (s.drawn (cyclesDue s e + ticksDue s e)) = .next u) :
    tick e s = .next { u with clk := clkAfter s e } :=
  tickWith_of_runClock (s.drawn _) h

/-- The CPU is halted, or waits for a key and no key can end the wait now (R131, R253). -/
def Idle (s : State) : Prop :=
  (∃ f, s.run = .halted f) ∨
    (∃ x, s.run = .waitingForKey x) ∧ ((s.cfg.keyWait = .edge ∧ s.latch = none) ∨ (s.cfg.keyWait = .level ∧ ∀ k : Key, s.key[k] = false))

/-- Of the events of an idle CPU only the timer ticks have an effect. -/
theorem runClock_of_idle (h : Idle s) (l : List ClockEvent) : runClock l s = .next (timerTick^[l.count .timerTick] s) := by
  have only_timers : runClock l s =
      .next { s with dt := (timerTick^[l.count .timerTick] s).dt, st := (timerTick^[l.count .timerTick] s).st } := by
    rcases h with ⟨f, hf⟩ | ⟨⟨x, hx⟩, hidle⟩
    · exact runClock_halted hf l
    · exact runClock_waiting hx hidle l
  rw [only_timers, timerTick_iterate]

/-- A tick of an idle CPU, in any order of its events, is the timer ticks due and the Clock's update. -/
theorem tickWith_of_idle (h : Idle s) (first : Nat → Nat → Bool) (e : Time) :
    tickWith first e s = .next { timerTick^[ticksDue s e] s with clk := clkAfter s e } :=
  tickWith_of_runClock s (by rw [runClock_of_idle h, (count_tickOrder _ _ _).2])

end

/-- Settles O50: the counts of a tick are the exact floors, and its next state is that of the drawn order of the events due. -/
theorem tickRunsTheEventsDue : Obligations.TickRunsTheEventsDue := by
  refine ⟨fun _ => rfl, runClock_timerTick, fun l s u => runClock_cycle l, fun s e hc => ?_⟩
  obtain ⟨u, hu⟩ := runClock_next (s.drawn (cyclesDue s e + ticksDue s e))
    (tickOrder (fun i j => Config.freeCycleFirst (s.draws + i + j)) (cyclesDue s e) (ticksDue s e))
  obtain ⟨hcycles, hticks⟩ := count_tickOrder (fun i j => Config.freeCycleFirst (s.draws + i + j)) (cyclesDue s e) (ticksDue s e)
  exact ⟨cycles_after_tick hc e, ticks_after_tick hc e, _, u, _, hcycles, hticks, hu, tick_of_runClock hu, rfl, rfl,
    ticks_after_tick hc e, cycles_after_tick hc e⟩

/-- Settles O52: an idle CPU's tick runs its timer ticks alone, at the port and in every order. -/
theorem tickWhileNotRunning : Obligations.TickWhileNotRunning := by
  intro e s (h : Idle s)
  have hd : Idle (s.drawn (cyclesDue s e + ticksDue s e)) := h
  refine ⟨⟨_, tickWith_of_idle hd _ e, ?_⟩, fun first => ⟨_, tickWith_of_idle h first e, ?_⟩⟩ <;>
    rw [timerTick_iterate] <;>
    exact ⟨toNat_countDown_iterate _ _, toNat_countDown_iterate _ _, rfl⟩

end Sys2Proof.Proofs

namespace Sys2Proof.Proofs

open Sys2Proof.Machine Sys2Proof.Claims

/-! ### DRW in terms of the covered pixels (R231, R232) -/

/-- The bytes of a sprite of `n` rows at I. -/
def spriteRows (s : State) (n : Count) : List Byte := (List.range' s.i.toNat n.val).map s.byteAt

/-- The sprite drawn at Vx, Vy: the new framebuffer, and whether a lit pixel was turned unlit. -/
def spriteDrawn (s : State) (x y : Reg) (n : Count) : Framebuffer × Bool :=
  drawSprite (s.v[x].toNat % 64) (s.v[y].toNat % 32) (spriteRows s n) s.fb

/-- The state after a DRW whose rows exist. -/
def afterDrw (s : State) (x y : Reg) (n : Count) : State :=
  (s.setFb (spriteDrawn s x y n).1).setV Reg.vf (flagByte (spriteDrawn s x y n).2)

section

variable {s t : State} {x y r : Reg} {n : Count} {px : Fin 64} {py : Fin 32}

/-- The rows of a sprite exist: they end inside memory, or there are none (D23). -/
theorem rows_fit_or_none (h : s.i.toNat + n.val ≤ 4096 ∨ n = 0) : s.i.toNat + n.val ≤ memSize ∨ n.val = 0 :=
  h.imp id fun hn => by rw [hn]; rfl

theorem exec_drw_afterDrw (h : s.i.toNat + n.val ≤ 4096 ∨ n = 0) : exec (.drw x y n) s = .next (afterDrw s x y n) :=
  exec_drw_ok (rows_fit_or_none h)

theorem length_spriteRows : (spriteRows s n).length = n.val := by rw [spriteRows, List.length_map, List.length_range']

theorem spriteRows_getD {k : Nat} (h : k < n.val) : (spriteRows s n).getD k 0 = s.byteAt (s.i.toNat + k) := by
  simp [spriteRows, List.getD_eq_getElem?_getD, h]

/-- The pixels that the statements call covered are those that the drawing hits. -/
theorem covers_iff_spriteHits :
    Covers s x y n.val px py ↔ spriteHits (s.v[x].toNat % 64) (s.v[y].toNat % 32) (spriteRows s n) px py := by
  unfold Covers spriteHits
  rw [length_spriteRows]
  refine exists₂_congr fun k b => and_congr_right fun hk => ?_
  rw [spriteRows_getD hk]

theorem spriteRows_length_le : (spriteRows s n).length ≤ 32 := by
  rw [length_spriteRows]; exact n.isLt.le.trans (by decide)

/-- A covered pixel ends as the opposite of what it was, any other one as it was. -/
theorem pixel_afterDrw : pixel (afterDrw s x y n).fb px py = true ↔
    if pixel s.fb px py = true then ¬ Covers s x y n.val px py else Covers s x y n.val px py := by
  rw [covers_iff_spriteHits]
  exact (drawSprite_spec _ _ spriteRows_length_le s.fb).1 px py

theorem pixel_afterDrw_of_covers (h : Covers s x y n.val px py) : pixel (afterDrw s x y n).fb px py = !pixel s.fb px py := by
  rw [Bool.eq_iff_iff, pixel_afterDrw]
  cases pixel s.fb px py <;> simp [h]

theorem pixel_afterDrw_of_not_covers (h : ¬ Covers s x y n.val px py) : pixel (afterDrw s x y n).fb px py = pixel s.fb px py := by
  rw [Bool.eq_iff_iff, pixel_afterDrw]
  cases pixel s.fb px py <;> simp [h]

/-- A collision is a covered pixel that was lit. -/
theorem collides_iff : (spriteDrawn s x y n).2 = true ↔ ∃ px py, Covers s x y n.val px py ∧ pixel s.fb px py = true := by
  simp only [covers_iff_spriteHits]
  exact (drawSprite_spec _ _ spriteRows_length_le s.fb).2

theorem vf_afterDrw : (afterDrw s x y n).v[(15 : Fin 16)] = flagByte (spriteDrawn s x y n).2 := by
  rw [afterDrw, State.getElem_setV, if_pos rfl]

theorem flagByte_eq_one_iff {c : Bool} : flagByte c = 1 ↔ c = true := by cases c <;> decide

theorem vf_afterDrw_eq_one_iff :
    (afterDrw s x y n).v[(15 : Fin 16)] = 1 ↔ ∃ px py, Covers s x y n.val px py ∧ pixel s.fb px py = true := by
  rw [vf_afterDrw, flagByte_eq_one_iff, collides_iff]

theorem vf_afterDrw_eq_zero (h : ∀ px py, Covers s x y n.val px py → pixel s.fb px py = false) :
    (afterDrw s x y n).v[(15 : Fin 16)] = 0 := by
  have none_lit : (spriteDrawn s x y n).2 = false := by
    rw [← Bool.not_eq_true, collides_iff]
    rintro ⟨px, py, hcov, hlit⟩
    exact Bool.false_ne_true ((h px py hcov).symm.trans hlit)
  rw [vf_afterDrw, none_lit]; rfl

/-- The state from which the same sprite is drawn again: the state after a DRW, with the registers as before it. -/
def redrawState (s : State) (x y : Reg) (n : Count) : State := { afterDrw s x y n with v := s.v }

/-- The second draw covers the pixels that the first one covered. -/
theorem covers_redrawState : Covers (redrawState s x y n) x y n.val px py ↔ Covers s x y n.val px py := Iff.rfl

/-- Flipping the covered pixels twice gives the screen back (R232). -/
theorem fb_afterDrw_redrawState : (afterDrw (redrawState s x y n) x y n).fb = s.fb := by
  refine framebuffer_ext fun px py => ?_
  by_cases hcov : Covers s x y n.val px py
  · have first : pixel (redrawState s x y n).fb px py = !pixel s.fb px py := pixel_afterDrw_of_covers hcov
    rw [pixel_afterDrw_of_covers (covers_redrawState.2 hcov), first, Bool.not_not]
  · have first : pixel (redrawState s x y n).fb px py = pixel s.fb px py := pixel_afterDrw_of_not_covers hcov
    rw [pixel_afterDrw_of_not_covers (fun h => hcov (covers_redrawState.1 h)), first]

/-- The second draw meets a lit pixel exactly where the first one lit it (R231). -/
theorem covered_and_lit_iff :
    (Covers s x y n.val px py ∧ pixel (afterDrw s x y n).fb px py = true) ↔
      (pixel s.fb px py = false ∧ pixel (afterDrw s x y n).fb px py = true) := by
  refine and_congr_left fun hlit => ?_
  rw [pixel_afterDrw] at hlit
  cases hs : pixel s.fb px py <;> simp_all

end

/-- Settles O43: the covered pixels flip and report a collision; where a row is out of range the fault is taken. -/
theorem drwFlipsTheCoveredPixels : Obligations.DrwFlipsTheCoveredPixels := by
  intro x y n s
  refine ⟨decodeWord_encode (i := .drw x y n) rfl, fun hrows => ⟨_, exec_drw_afterDrw hrows, rfl, fun _ _ => pixel_afterDrw_of_covers,
    fun _ _ => pixel_afterDrw_of_not_covers, fun _ => getElem_setV_of_ne, vf_afterDrw_eq_one_iff.2, vf_afterDrw_eq_zero⟩, fun hrows => ?fault⟩
  case fault =>
    obtain ⟨past, some_row⟩ := not_or.1 hrows
    exact exec_drw_fault (Nat.lt_of_not_le past) (fun hn => some_row (Fin.ext hn))

/-- Settles O44: the second draw covers the same pixels, so it undoes the first and collides where the first one lit a pixel. -/
theorem drawingTwiceRestoresTheScreen : Obligations.DrawingTwiceRestoresTheScreen := by
  intro x y n s t hrows hdraw
  cases (exec_drw_afterDrw hrows).symm.trans hdraw
  refine ⟨_, exec_drw_afterDrw (s := redrawState s x y n) hrows, fb_afterDrw_redrawState, vf_afterDrw_eq_one_iff.trans ?_⟩
  exact exists₂_congr fun _ _ => covered_and_lit_iff (s := s)

/-- Refutes O45: one row 0x80 drawn at (0, 0) on an all-lit screen turns its pixel unlit, so the second draw meets no lit pixel (log 32). -/
theorem not_secondDrawAlwaysCollides : ¬ Obligations.SecondDrawAlwaysCollides := by
  intro h
  let s : State :=
    { State.construct initialConfig with i := 0xFFF, mem := [(0xFFF, 0x80)], fb := Vector.replicate 32 (Vector.replicate 64 true) }
  have hrows : s.i.toNat + (1 : Count).val ≤ 4096 ∨ (1 : Count) = 0 := .inl (by decide)
  have row : s.byteAt (s.i.toNat + 0) = 0x80 := by simp [s, State.byteAt, Memory.read]
  have hcov : Covers s 0 0 1 0 0 := ⟨0, 0, by decide, by decide, rfl, rfl, by rw [row]; decide⟩
  have hdraw : exec (.drw 0 0 1) s = .next (afterDrw s 0 0 1) := exec_drw_afterDrw hrows
  obtain ⟨u, hredraw, -, hvf⟩ := drawingTwiceRestoresTheScreen 0 0 1 s _ hrows hdraw
  obtain ⟨px, py, unlit, -⟩ := hvf.1 (h 0 0 1 s _ u hrows ⟨0, 0, hcov⟩ hdraw hredraw)
  have lit : pixel s.fb px py = true := by simp [s, pixel]
  exact Bool.false_ne_true (unlit.symm.trans lit)

end Sys2Proof.Proofs

namespace Sys2Proof.Proofs

open Sys2Proof.Machine Sys2Proof.Claims

/-! ### The keys (R250 to R254, R287 to R289) -/

section

variable {s : State} {x : Reg} {k : Key}

/-- The key of the low nibble is the one whose number is the remainder modulo 16 (R254). -/
theorem lowNibble_eq (h : k.val = s.v[x].toNat % 16) : lowNibble s.v[x] = k :=
  Fin.ext ((lowNibble_val _).trans h.symm)

/-- The state after key `k` has ended the wait of register `x` (R253). -/
def afterKey (s : State) (x : Reg) (k : Key) : State := { s with v := s.v.set x (BitVec.ofNat 8 k.val), latch := none, run := .running }

/-- Under EDGE the latched key ends the wait. -/
theorem keyWaitComplete_edge (hk : s.cfg.keyWait = .edge) (hl : s.latch = some k) : keyWaitComplete x s = afterKey s x k := by
  simp only [keyWaitComplete, hk, hl]; rfl

/-- Under LEVEL some held key ends the wait, which spends a draw (log 8). -/
theorem keyWaitComplete_level (hk : s.cfg.keyWait = .level) (hheld : ∃ k : Key, s.key[k] = true) :
    ∃ k : Key, s.key[k] = true ∧ keyWaitComplete x s = (afterKey s x k).drawn 1 := by
  cases hpick : pickKey (Config.freeChoice s.draws) (heldKeys s) with
  | none =>
    obtain ⟨k, hpressed⟩ := hheld
    have unpressed : s.key[k] = false := heldKeys_eq_nil.1 (pickKey_eq_none.1 hpick) k
    exact absurd (hpressed.symm.trans unpressed) (by decide)
  | some k =>
    refine ⟨k, mem_heldKeys.1 (pickKey_mem hpick), ?_⟩
    simp only [keyWaitComplete, hk, hpick]; rfl

/-- The latch takes a key pressed from unpressed, in a wait with none latched (R288). -/
theorem nextLatch_press (hrun : s.run = .waitingForKey x) (hl : s.latch = none) (hk : s.key[k] = false) : nextLatch s k true = some k := by
  simp only [nextLatch, hrun, hl, isPressed, hk]; rfl

/-- Every key of a list is the answer of some choice (R289). -/
theorem exists_pickKey {held : List Key} (h : k ∈ held) : ∃ c, pickKey c held = some k := by
  obtain ⟨c, hc, hget⟩ := List.mem_iff_getElem.1 h
  exact ⟨c, by rw [pickKey, Nat.mod_eq_of_lt hc, List.getElem?_eq_getElem hc, hget]⟩

end

/-- Settles O46: both skips test the key of the low nibble. -/
theorem skipsOnAKey : Obligations.SkipsOnAKey := by
  intro x k s hk
  rw [← lowNibble_eq hk]
  exact ⟨decodeWord_encode (i := .skp x) rfl, decodeWord_encode (i := .sknp x) rfl, exec_skp s x, exec_sknp s x⟩

/-- Settles O47: the entry of the wait, and its completion under EDGE and LEVEL, with and without a key that ends it. -/
theorem keyWaitEntryAndCompletion : Obligations.KeyWaitEntryAndCompletion := by
  intro x s
  refine ⟨decodeWord_encode (i := .ldVxK x) rfl, exec_ldVxK s x, fun hrun hin => ?_⟩
  rw [step_waiting hrun hin]
  refine ⟨fun hk k hl => ?edge, fun hk hl => ?noLatch, fun hk hnone => ?noHeld, fun hk hheld => ?level⟩
  case edge => rw [keyWaitComplete_edge hk hl]; rfl
  case noLatch => rw [keyWaitComplete_idle x (.inl ⟨hk, hl⟩)]
  case noHeld => rw [keyWaitComplete_idle x (.inr ⟨hk, hnone⟩)]
  case level =>
    obtain ⟨k, hpressed, hdone⟩ := keyWaitComplete_level (x := x) hk hheld
    exact ⟨k, hpressed, by rw [hdone]; rfl⟩

/-- Settles O48: the key that is set, and the two cases of the latch. -/
theorem setKeyLatchesTheFirstPress : Obligations.SetKeyLatchesTheFirstPress := by
  intro k p s
  refine ⟨fun j => ?key, fun ⟨hp, hk, ⟨x, hrun⟩, hl⟩ => ?press, nextLatch_other, rfl⟩
  case key => simp only [setKey, Fin.getElem_fin, Vector.getElem_set, Fin.ext_iff, eq_comm]
  case press => rw [hp]; exact nextLatch_press hrun hl hk

/-- Settles O49: each port reads its part of the state; the polled key is one of the held ones. -/
theorem outPortsReadTheState : Obligations.OutPortsReadTheState := by
  intro s
  refine ⟨?sound, fun _ => rfl, fun c => pickKey_eq_none.trans heldKeys_eq_nil, fun c k h => mem_heldKeys.1 (pickKey_mem h),
    fun k h => exists_pickKey (mem_heldKeys.2 h), fun x y hx hy => dif_pos ⟨hx, hy⟩, fun x y h => dif_neg (by omega)⟩
  case sound => rw [sound_iff, ne_eq, ← BitVec.toNat_inj]; rfl

/-! ### Construction and `reset` (R46, R310, R311) -/

/-- The registers after construction and after `reset`: all 0. -/
theorem getElem_clearedRegs (r : Reg) : (Vector.replicate 16 (0 : Byte))[r] = 0 := Vector.getElem_replicate _

/-- The keypad after construction: all keys unpressed. -/
theorem getElem_clearedKeys (k : Key) : (Vector.replicate 16 false)[k] = false := Vector.getElem_replicate _

/-- Settles O53: every part of the constructed state; its memory, which nothing has written, reads as the font and as 0 elsewhere. -/
theorem constructionState : Obligations.ConstructionState := by
  intro cfg
  refine ⟨_, rfl, getElem_clearedRegs, rfl, rfl, rfl, rfl, rfl, rfl, pixel_blankScreen, getElem_clearedKeys, rfl, rfl, rfl, rfl, rfl,
    fun d r _ _ => ?font, fun a => byteAt_outside_font (s := State.construct cfg) rfl⟩
  case font =>
    rw [Nat.add_assoc]; exact byteAt_font (s := State.construct cfg) rfl _

/-- Settles O54: what `reset` sets, and memory, keys and configuration as before. -/
theorem resetKeepsMemoryAndKeys : Obligations.ResetKeepsMemoryAndKeys :=
  fun _ => ⟨_, rfl, getElem_clearedRegs, rfl, rfl, rfl, rfl, rfl, rfl, rfl, pixel_blankScreen, rfl, fun _ => rfl, rfl, rfl⟩

end Sys2Proof.Proofs
